-- ==== Sys2Proof/Word.lean ====
section
/-! DEFINITION. The words of the unit: the 8-bit cell, the 6-bit sextet, the 24-bit group, and the two interface words.
Lengths and indices are natural numbers, as rule R4 allows ("a model may use unbounded natural numbers and obtain the
hardware's results bit for bit"); their widths are checks (WellFormed.lean) and an invariant (Safety.lean). -/

namespace Sys2Proof

/-- A raw byte cell or a character cell: 8 bits (R41). -/
abbrev Byte := BitVec 8

/-- A sextet: a 6-bit value 0 to 63 (00_scope.md section 7; R79). -/
abbrev Sextet := BitVec 6

/-- The 24-bit group of the encoder format `G24` (R79). -/
abbrev Group24 := BitVec 24

/-- A command word: `2 * LEN_W + 2` = 66 bits (R70). -/
abbrev CmdWord := BitVec 66

/-- A response word: `VAL_W + 2` = 35 bits (R75). -/
abbrev RspWord := BitVec 35

end Sys2Proof
end

