-- ==== Sys2Proof/Config.lean ====
section
/-! DEFINITION. What is fixed for one machine (the width parameter of 00_scope.md section 4) and the free values the
spec writes `any`: constants with no body, so that no proof can learn what they are. -/

namespace Sys2Proof

/-- `LEN_W`, the width in bits of a length or buffer index: the spec's default (00_scope.md section 4; D2, U11).
DESIGN CHOICE, assumption 1: the model is of the unit with this value of the parameter. -/
abbrev Config.lenW : Nat := 32

/-- `VAL_W = LEN_W + 1`, the width of the response value (00_scope.md section 4; D2). -/
abbrev Config.valW : Nat := Config.lenW + 1

/-- Draw `k` of a cell that holds `any` (R141, R191, R197, R198, R199): nothing constrains it. Assumption 2. -/
opaque Config.freeByte : Nat → BitVec 8

/-- Draw `k` of a response that is `any` (R197, R199; U7, U8): status and value both. Assumption 2. -/
opaque Config.freeRspWord : Nat → BitVec 35

/-- What a cell of the host's memory holds before the host has written it: some byte, the same at every read (R48), that
nothing constrains. Assumption 3. -/
opaque Config.unfilledByte : Nat → BitVec 8

end Sys2Proof
end

