-- ==== Sys2Proof/Syntax.lean ====
section
/-! DEFINITION. The instructions: one constructor for each row of spec/opcode_table.json. An operand is a field of the
command word (R10, R70); the two buffers are not in the word, they are the two ports (R40). -/

namespace Sys2Proof

/-- A command of the unit. Every row carries both scalar fields of the single format `CMD` (R70), the ones its operation
ignores too, so that no bit of a command word is dropped by decoding. -/
inductive Instr where
  /-- `ENCLEN n`, `op = 0`: the encoded-length calculator (R101); `dstCap` is ignored (R73). -/
  | enclen (dstCap srcLen : Nat)
  /-- `ENCODE dst, cap, src, len`, `op = 1`: the encoder (R111). -/
  | encode (dstCap srcLen : Nat)
  /-- `DECODE dst, cap, src, len`, `op = 2`: the decoder (R132). -/
  | decode (dstCap srcLen : Nat)
  /-- The reserved code `op = 3` (R72); both fields are ignored (R165). -/
  | reserved3 (dstCap srcLen : Nat)
  deriving DecidableEq, Repr

/-- The `dst_cap` field of a command (R70). -/
def Instr.dstCap : Instr → Nat
  | .enclen cap _ => cap
  | .encode cap _ => cap
  | .decode cap _ => cap
  | .reserved3 cap _ => cap

/-- The `src_len` field of a command (R70). -/
def Instr.srcLen : Instr → Nat
  | .enclen _ n => n
  | .encode _ n => n
  | .decode _ n => n
  | .reserved3 _ n => n

end Sys2Proof
end

