-- ==== Sys2Proof/WellFormed.lean ====
section
/-! DEFINITION. When a command can be written as a command word. Its text form has natural-number operands (R74); the word
has `LEN_W` bits for each (R70). Every value that fits is legal (R72, D26), so these are the only two checks. -/

namespace Sys2Proof

/-- `dst_cap` fits its `LEN_W`-bit field (R70, table T-REG). -/
def Instr.capFits (i : Instr) : Bool := decide (i.dstCap < 2 ^ Config.lenW)

/-- `src_len` fits its `LEN_W`-bit field (R70, table T-REG). -/
def Instr.lenFits (i : Instr) : Bool := decide (i.srcLen < 2 ^ Config.lenW)

/-- A well-formed command: both scalar fields fit. -/
def Instr.wf (i : Instr) : Bool := i.capFits && i.lenFits

end Sys2Proof
end

