-- ==== Sys2Proof/Decode.lean ====
section
/-! DEFINITION. From command words to instructions and back (R70 to R72): the word is `op`, then `dst_cap`, then `src_len`,
most significant first. Every 66-bit word is a command; anything that is not 66 bits is rejected by name. -/

namespace Sys2Proof

/-- The operation code of each command (R71; R72 for the reserved one). -/
def Instr.opcode : Instr → BitVec 2
  | .enclen _ _ => 0#2
  | .encode _ _ => 1#2
  | .decode _ _ => 2#2
  | .reserved3 _ _ => 3#2

/-- Field `op` of a command word, bits `[65:64]` (R70). -/
def CmdWord.op (w : CmdWord) : BitVec 2 := w.extractLsb' 64 2

/-- Field `dst_cap` of a command word, bits `[63:32]`, unsigned (R70). -/
def CmdWord.dstCap (w : CmdWord) : Nat := (w.extractLsb' 32 32).toNat

/-- Field `src_len` of a command word, bits `[31:0]`, unsigned (R70). -/
def CmdWord.srcLen (w : CmdWord) : Nat := (w.extractLsb' 0 32).toNat

/-- The command a word stands for (R71, R72): total, since all four codes have a meaning. -/
def decodeWord (w : CmdWord) : Instr :=
  if CmdWord.op w = 0#2 then .enclen (CmdWord.dstCap w) (CmdWord.srcLen w)
  else if CmdWord.op w = 1#2 then .encode (CmdWord.dstCap w) (CmdWord.srcLen w)
  else if CmdWord.op w = 2#2 then .decode (CmdWord.dstCap w) (CmdWord.srcLen w)
  else .reserved3 (CmdWord.dstCap w) (CmdWord.srcLen w)

/-- Why a string of bits or bytes is no command word. -/
inductive DecodeError where
  /-- A bit above bit 65 is set: a command is one word of 66 bits, of one length only (R70). -/
  | widerThanCommandWord
  /-- Not the nine bytes that hold a 66-bit word. -/
  | notNineBytes
  deriving DecidableEq, Repr

/-- Decode a number taken as bits, bit 0 least significant (spec/opcode_table.json). -/
def decodeBits (w : Nat) : Except DecodeError Instr :=
  if w < 2 ^ 66 then .ok (decodeWord (BitVec.ofNat 66 w)) else .error .widerThanCommandWord

/-- Bytes as a number, the first byte least significant (assumption 4: the spec gives a command no byte order). -/
def bitsOfBytes : List Byte → Nat
  | [] => 0
  | b :: bs => b.toNat + 256 * bitsOfBytes bs

/-- Decode a command given as bytes: exactly nine of them, the six bits above bit 65 zero. -/
def decodeBytes (bs : List Byte) : Except DecodeError Instr :=
  if bs.length = 9 then decodeBits (bitsOfBytes bs) else .error .notNineBytes

/-- The low `8 * k` bits of a number as `k` bytes, least significant first. -/
def bytesOfBits : Nat → Nat → List Byte
  | 0, _ => []
  | k + 1, w => BitVec.ofNat 8 w :: bytesOfBits k (w / 256)

/-- The command the decoder reads from the opcode table's bits `w` (the host's fixed name). Every row has 66 bits, nine
bytes, so `nbits` adds nothing: a bit above the ninth byte is refused, as no command has one. -/
def decodeTableWord (_nbits w : Nat) : Option Instr :=
  if w < 2 ^ 72 then
    match decodeBytes (bytesOfBits 9 w) with
    | .ok i => some i
    | .error _ => none
  else none

/-- The command word of a command (R70): `op` in the two most significant bits, then `dst_cap`, then `src_len`. -/
def encodeWord (i : Instr) : CmdWord :=
  i.opcode ++ (BitVec.ofNat 32 i.dstCap ++ BitVec.ofNat 32 i.srcLen)

end Sys2Proof
end

