-- ==== Sys2Proof/Machine/State.lean ====
section
/-! DEFINITION. The state of the unit and of the host side it meets, as plain data, and its value after reset.

The unit's own state is `mode` with what each mode holds (R15, R16, R19). The host side is the memory behind the two buffer
ports, the reset, command and take lines (R190, T-HOST), what the host has lent to the operation in flight (T-HOST, "host
hands over"), what the host is still going to do, and what it has got back. `spoiled`, `agenda`, `received`, `observed`,
`bus` and `draws` are the model's own fields (INVENTORY.md says of each why it is there). -/

namespace Sys2Proof.Machine

/-- The four status codes of a response (R160). -/
inductive Status where
  | ok
  | invalidChar
  | precondition
  | illegalOp
  deriving DecidableEq, Repr

/-- A response: `RSP.status` and `RSP.value` (R75, R160, R161). -/
structure Response where
  status : Status
  value : Nat
  deriving DecidableEq, Repr

/-- The operations that can be in flight: `C_OP` of table T-CTX holds 1 (ENCODE) or 2 (DECODE) and nothing else. -/
inductive Transform where
  | encode
  | decode
  deriving DecidableEq, Repr

/-- The in-flight context, table T-CTX (R16): `C_OP`, `C_N`, `C_CAP`, `C_P`, `C_G`. -/
structure Context where
  op : Transform
  n : Nat
  cap : Nat
  p : Fin 3
  g : Nat
  deriving DecidableEq, Repr

/-- `MODE` (R15): the context exists only in `RUN`, the response only in `DONE` (R19). -/
inductive Mode where
  | idle
  | run (c : Context)
  | done (r : Response)
  deriving DecidableEq, Repr

/-- What the host hands over with a command until it takes the response (T-HOST): read access to `SRC[0..srcLen-1]`, write
access to `DST[0..dstCap-1]`. -/
structure Loan where
  srcLen : Nat
  dstCap : Nat
  deriving DecidableEq, Repr

/-- One access on a buffer port, a whole cell (R47): `R i` and `W j` of 95_test_vectors.md section 2.9, with the value. -/
inductive Access where
  | srcRead (i : Nat) (v : Byte)
  | dstWrite (j : Nat) (v : Byte)
  deriving DecidableEq, Repr

/-- What the host can do (R204: offer a command, take the response, `rst`; and, in its own memory, R193 and R200), and the
two entries that give the unit its turn. -/
inductive HostAct where
  /-- Offer this command word, or stop offering (R196: "the host keeps offering (or offers again)"). -/
  | offer (w : Option CmdWord)
  /-- Be ready, or no longer ready, to take one response (R23). -/
  | takeReady (ready : Bool)
  /-- Assert or release `rst` (R190). -/
  | rst (asserted : Bool)
  /-- Write a cell of the host's memory (R193 (2); inside a lent buffer the breach of R197 or R198). -/
  | poke (a : Nat) (v : Byte)
  /-- Read a cell of the host's memory (R193 (6); inside a lent destination the breach of R198). -/
  | peek (a : Nat)
  /-- Bind the source port and the destination port to the buffers that start at these cells (R193 (1), R200). -/
  | bindPorts (src dst : Nat)
  /-- Let the unit make one step. -/
  | turn
  /-- Let the unit go on until it has no step left to make by itself. -/
  | wait
  deriving DecidableEq, Repr

/-- The host's memory: (cell, byte) pairs. A cell with no pair is one nothing has written (assumption 3). -/
abbrev Memory := List Host.Cell

/-- The whole machine. -/
structure State where
  /-- `MODE`, with the in-flight context or the pending response (R15, R16, R19). -/
  mode : Mode
  /-- The host's memory behind the two ports (R40, R41). -/
  mem : Memory
  /-- The cell the source port shows as `SRC[0]` (R41, R193). -/
  srcBase : Nat
  /-- The cell the destination port shows as `DST[0]` (R41, R193). -/
  dstBase : Nat
  /-- The reset input (R190). -/
  rst : Bool
  /-- The command word offered now, if any (table T-REG: "a command word exists only while it is offered"). -/
  cmd : Option CmdWord
  /-- The host is ready to take a response (R23). -/
  take : Bool
  /-- The buffers lent to the operation in flight, from accept to take (T-HOST). -/
  loan : Option Loan
  /-- The operation in flight has lost `SrcFilled`, `DstOwned` or `Disjoint` (R194): its outcome is `any`. -/
  spoiled : Bool
  /-- What the host still does, in order; when it is empty the unit steps freely. -/
  agenda : List HostAct
  /-- The response words the host has taken, oldest first (R23, R75). -/
  received : List RspWord
  /-- The bytes the host has read from its memory, oldest first. -/
  observed : List Byte
  /-- The accesses of the latest step on the two ports, in order (R51). -/
  bus : List Access
  /-- How many free values have been drawn. -/
  draws : Nat
  deriving DecidableEq, Repr

/-- The reasons a step can stop with a fault. The spec gives the unit none: a failed operation ends with a response. -/
inductive Fault where
  /-- Raised by a group step (Machine/Encoder.lean, Machine/Decoder.lean) whose index `C_G` names no group (R18 gives none,
  so the spec gives the step no effect). Safe: no state that satisfies `Inv` (Safety.lean) raises it
  (assumption 22). -/
  | noSuchGroup
  deriving DecidableEq, Repr

/-- The reasons a step can be refused. -/
inductive Refusal where
  /-- Raised by an arm of `exec` whose instruction has no meaning yet; no arm does. Safe. -/
  | notModelled (mnemonic : String)
  deriving DecidableEq, Repr

/-- The machine right after reset (R26, R190): `MODE = IDLE`, no context, no response, no command. The other fields are the
host side at power-on, chosen by the model (assumption 5): nothing written, nothing offered, nothing lent, nothing left to
do, and the two ports bound to two disjoint windows of `2^LEN_W` cells, the separate spaces of R40. -/
def State.reset : State where
  mode := .idle
  mem := []
  srcBase := 0
  dstBase := 2 ^ Config.lenW
  rst := false
  cmd := none
  take := false
  loan := none
  spoiled := false
  agenda := []
  received := []
  observed := []
  bus := []
  draws := 0

end Sys2Proof.Machine
end

