-- ==== Sys2Proof/Machine/Tables.lean ====
section
/-! DEFINITION. The two constant tables of the unit (R44): `ALPHA`, sextet to character, and `DEC`, character to sextet or
sentinel, with the total decode function `dec`. No state holds them and nothing writes them. -/

namespace Sys2Proof.Machine

/-- `PAD_CHAR`, the character `=`, code 0x3D (R78). -/
def padChar : Byte := 0x3D#8

/-- `DEC_BASE`, the character code of table index 0: `+` (R80). -/
def decBase : Nat := 0x2B

/-- Table T-ALPHA (R76): the character codes of `A-Z a-z 0-9 + /`, in the order of the sextets 0 to 63. -/
def alphaTable : List Byte :=
  [0x41#8, 0x42#8, 0x43#8, 0x44#8, 0x45#8, 0x46#8, 0x47#8, 0x48#8, 0x49#8, 0x4A#8, 0x4B#8, 0x4C#8, 0x4D#8, 0x4E#8, 0x4F#8, 0x50#8]
  ++ [0x51#8, 0x52#8, 0x53#8, 0x54#8, 0x55#8, 0x56#8, 0x57#8, 0x58#8, 0x59#8, 0x5A#8, 0x61#8, 0x62#8, 0x63#8, 0x64#8, 0x65#8, 0x66#8]
  ++ [0x67#8, 0x68#8, 0x69#8, 0x6A#8, 0x6B#8, 0x6C#8, 0x6D#8, 0x6E#8, 0x6F#8, 0x70#8, 0x71#8, 0x72#8, 0x73#8, 0x74#8, 0x75#8, 0x76#8]
  ++ [0x77#8, 0x78#8, 0x79#8, 0x7A#8, 0x30#8, 0x31#8, 0x32#8, 0x33#8, 0x34#8, 0x35#8, 0x36#8, 0x37#8, 0x38#8, 0x39#8, 0x2B#8, 0x2F#8]

/-- `ALPHA[s]` (R76). The table has an entry for every sextet (`alphaTable_length`), so the default is never read. -/
def alpha (s : Sextet) : Byte := alphaTable.getD s.toNat 0x00#8

/-- An entry of the decode table: the three-way sum R86 asks for. -/
inductive DecEntry where
  /-- The character stands for this sextet. -/
  | sextet (v : Sextet)
  /-- The sentinel `PAD`, -2. -/
  | pad
  /-- The sentinel `INV`, -1. -/
  | inv
  deriving DecidableEq, Repr

/-- Table T-DEC (R80): entry `t` is of the character with code `t + 0x2B`, `t` = 0 to 79. -/
def decTable : List DecEntry := List.flatten [
  [.sextet 62#6, .inv, .inv, .inv, .sextet 63#6, .sextet 52#6, .sextet 53#6, .sextet 54#6, .sextet 55#6, .sextet 56#6],
  [.sextet 57#6, .sextet 58#6, .sextet 59#6, .sextet 60#6, .sextet 61#6, .inv, .inv, .inv, .pad, .inv],
  [.inv, .inv, .sextet 0#6, .sextet 1#6, .sextet 2#6, .sextet 3#6, .sextet 4#6, .sextet 5#6, .sextet 6#6, .sextet 7#6],
  [.sextet 8#6, .sextet 9#6, .sextet 10#6, .sextet 11#6, .sextet 12#6, .sextet 13#6, .sextet 14#6, .sextet 15#6, .sextet 16#6, .sextet 17#6],
  [.sextet 18#6, .sextet 19#6, .sextet 20#6, .sextet 21#6, .sextet 22#6, .sextet 23#6, .sextet 24#6, .sextet 25#6, .inv, .inv],
  [.inv, .inv, .inv, .inv, .sextet 26#6, .sextet 27#6, .sextet 28#6, .sextet 29#6, .sextet 30#6, .sextet 31#6],
  [.sextet 32#6, .sextet 33#6, .sextet 34#6, .sextet 35#6, .sextet 36#6, .sextet 37#6, .sextet 38#6, .sextet 39#6, .sextet 40#6, .sextet 41#6],
  [.sextet 42#6, .sextet 43#6, .sextet 44#6, .sextet 45#6, .sextet 46#6, .sextet 47#6, .sextet 48#6, .sextet 49#6, .sextet 50#6, .sextet 51#6]]

/-- The total decode function `dec(c)` (R81): `INV` below the table and beyond its bound. -/
def dec (c : Byte) : DecEntry :=
  if c.toNat < decBase then .inv else decTable.getD (c.toNat - decBase) .inv

/-- The hardware coding of a `DEC` entry, 8 bits two's complement (R86). -/
def DecEntry.hwCode : DecEntry → BitVec 8
  | .sextet v => v.setWidth 8
  | .inv => 0xFF#8
  | .pad => 0xFE#8

end Sys2Proof.Machine
end

