-- ==== Sys2Proof/Machine/Operands.lean ====
section
/-! DEFINITION. What the operands of a command and the cells of a group stand for: the two length functions, the group
counts, the pad count, the group format `G24` and its inverse. All of it is arithmetic without state. -/

namespace Sys2Proof.Machine

/-- `enclen(n)`, the encoded length of `n` bytes (R100), exact and without wrap (R4, R103). -/
def enclen (n : Nat) : Nat := (n + 2) / 3 * 4

/-- `declen(m, p)`, the decoded length of `m` characters of which `p` are pads (R104). -/
def declen (m p : Nat) : Nat := m / 4 * 3 - p

/-- The number of groups `T` of an ENCODE of `n` bytes (R18). -/
def encodeGroups (n : Nat) : Nat := (n + 2) / 3

/-- The number of groups `T` of a DECODE of `m` characters (R18). -/
def decodeGroups (m : Nat) : Nat := m / 4

/-- `padcount` from the last two characters, `c1 = S[m-1]` and `c2 = S[m-2]` (R131): never more than 2. -/
def padcount (c1 c2 : Byte) : Fin 3 :=
  if c1 ≠ padChar then 0 else if c2 ≠ padChar then 1 else 2

/-- The 24-bit word of three bytes, `byte0` in bits `[23:16]` (R45, R79). -/
def group24 (b0 b1 b2 : Byte) : Group24 := b0 ++ (b1 ++ b2)

/-- `symbol0`: bits `[23:18]` of the group, through `ALPHA` (R79, R112). -/
def symbol0 (w : Group24) : Byte := alpha (w.extractLsb' 18 6)

/-- `symbol1`: bits `[17:12]` of the group, through `ALPHA` (R79, R112). -/
def symbol1 (w : Group24) : Byte := alpha (w.extractLsb' 12 6)

/-- `symbol2`: bits `[11:6]` of the group, through `ALPHA` (R79, R112). -/
def symbol2 (w : Group24) : Byte := alpha (w.extractLsb' 6 6)

/-- `symbol3`: bits `[5:0]` of the group, through `ALPHA` (R79, R112). -/
def symbol3 (w : Group24) : Byte := alpha (w.extractLsb' 0 6)

/-- The four characters of a complete group (R112). -/
def fullSymbols (b0 b1 b2 : Byte) : List Byte :=
  [symbol0 (group24 b0 b1 b2), symbol1 (group24 b0 b1 b2), symbol2 (group24 b0 b1 b2), symbol3 (group24 b0 b1 b2)]

/-- The four characters of a one-byte tail: `s0 = b0[7:2]`, `s1 = (b0 & 0x03) << 4`, two pads (R113). -/
def tailSymbols1 (b0 : Byte) : List Byte :=
  [alpha (b0.extractLsb' 2 6), alpha (b0.extractLsb' 0 2 ++ 0#4), padChar, padChar]

/-- The four characters of a two-byte tail: `s0 = b0[7:2]`, `s1 = {b0[1:0], b1[7:4]}`, `s2 = (b1 & 0x0F) << 2`, one pad
(R114; C3 on the document's loose words for `s2`). -/
def tailSymbols2 (b0 b1 : Byte) : List Byte :=
  [alpha (b0.extractLsb' 2 6), alpha (b0.extractLsb' 0 2 ++ b1.extractLsb' 4 4),
    alpha (b1.extractLsb' 0 4 ++ 0#2), padChar]

/-- `byte0 = (field0 << 2) | (field1 >> 4)`, eight bits (R83). -/
def byte0 (f0 f1 : Sextet) : Byte := (f0.setWidth 8 <<< 2) ||| (f1.setWidth 8 >>> 4)

/-- `byte1 = ((field1 & 0x0F) << 4) | (field2 >> 2)` (R83). -/
def byte1 (f1 f2 : Sextet) : Byte := ((f1.setWidth 8 &&& 0x0F#8) <<< 4) ||| (f2.setWidth 8 >>> 2)

/-- `byte2 = ((field2 & 0x03) << 6) | field3` (R83). -/
def byte2 (f2 f3 : Sextet) : Byte := ((f2.setWidth 8 &&& 0x03#8) <<< 6) ||| f3.setWidth 8

end Sys2Proof.Machine
end

