-- ==== Sys2Proof/Machine/Flags.lean ====
section
/-! DEFINITION. The unit has no condition flags (R13): the only status it produces is the `status` field of a response.
This file holds the codes of the statuses and the response word (R75, R160). -/

namespace Sys2Proof.Machine

/-- The status codes (R160). -/
def Status.code : Status → BitVec 2
  | .ok => 0#2
  | .invalidChar => 1#2
  | .precondition => 2#2
  | .illegalOp => 3#2

/-- The response word (R75): `status = RSP[34:33]`, `value = RSP[32:0]`. -/
def Response.word (r : Response) : RspWord := r.status.code ++ BitVec.ofNat 33 r.value

/-- `PRECONDITION` cause 1: a DECODE `src_len` that is no multiple of 4 (R160, R164). -/
def causeLength : Nat := 1

/-- `PRECONDITION` cause 2: `dst_cap` too small (R160, R164). -/
def causeCapacity : Nat := 2

end Sys2Proof.Machine
end

