-- ==== Sys2Proof/Machine/Ops.lean ====
section
/-! DEFINITION. The shared operations: memory, the two buffer ports, the end of an operation (`respond`, `raise`), the take
step, the accept step's frame, `any` cells, and what is in flight. -/

namespace Sys2Proof.Machine

/-! Memory. -/

/-- The canonical form: cells strictly rising. No pair can equal what an unlisted cell reads as, since that is no value. -/
abbrev Memory.wf (m : Memory) : Prop := List.Pairwise (fun x y => x.1 < y.1) m

/-- The byte written last to a cell; none where nothing has been written. -/
def Memory.read : Memory → Nat → Option Byte
  | [], _ => none
  | (k, v) :: m, a => if a = k then some v else Memory.read m a

/-- Write one cell, keeping the canonical form. -/
def Memory.write : Memory → Nat → Byte → Memory
  | [], a, b => [(a, b)]
  | (k, v) :: m, a, b =>
    if a < k then (a, b) :: (k, v) :: m
    else if a = k then (a, b) :: m
    else (k, v) :: Memory.write m a b

/-- Write consecutive cells, lowest first. -/
def Memory.writeAll : Memory → Nat → List Byte → Memory
  | m, _, [] => m
  | m, a, b :: bs => Memory.writeAll (Memory.write m a b) (a + 1) bs

/-- `n` bytes that are `any`, from draw `d` on. -/
def freeBytes (d n : Nat) : List Byte := (List.range n).map fun k => Config.freeByte (d + k)

/-! Cells and ports. -/

/-- The byte a cell of the host's memory holds: where nothing has been written, some byte nothing constrains (R48: the same
at every read; assumption 3). -/
def State.cell (s : State) (a : Nat) : Byte := (Memory.read s.mem a).getD (Config.unfilledByte a)

/-- The cell `SRC[i]` of the source port (R40, R41). -/
def State.srcCell (s : State) (i : Nat) : Byte := s.cell (s.srcBase + i)

/-- The cell `DST[j]` as a reader of the destination buffer sees it; the unit has no such read (R42). -/
def State.dstCell (s : State) (j : Nat) : Byte := s.cell (s.dstBase + j)

/-- Begin a step: no access has been made in it. -/
def State.quiet (s : State) : State := { s with bus := [] }

/-- Note on the bus the read of `SRC[i]`. -/
def State.noteRead (s : State) (i : Nat) : State := { s with bus := s.bus ++ [.srcRead i (s.srcCell i)] }

/-- `MemWrite(DST[j], 1, v)` (00_scope.md section 5; R47). -/
def State.writeDst (s : State) (j : Nat) (v : Byte) : State :=
  { s with mem := Memory.write s.mem (s.dstBase + j) v, bus := s.bus ++ [.dstWrite j v] }

/-- `MemWrite` of consecutive destination cells, in ascending index (R116, R142). -/
def State.writeDstAll : State → Nat → List Byte → State
  | s, _, [] => s
  | s, j, v :: vs => State.writeDstAll (s.writeDst j v) (j + 1) vs

/-- The cells `DST[lo..hi-1]` hold `any` (R141, R191, R197, R199): one fresh free value each. Not an access of the unit. -/
def State.anyDst (s : State) (lo hi : Nat) : State :=
  { s with mem := Memory.writeAll s.mem (s.dstBase + lo) (freeBytes s.draws (hi - lo)), draws := s.draws + (hi - lo) }

/-! The end of an operation. -/

/-- `respond(OK, v)`: the operation ends normally (00_scope.md section 5). -/
def State.respond (s : State) (v : Nat) : State := { s with mode := .done ⟨.ok, v⟩ }

/-- `raise <Status>(info)`, the unit's only trap entry (R166): to `DONE` with the response, the context dropped, nothing
saved anywhere else. -/
def State.raise (s : State) (st : Status) (info : Nat) : State := { s with mode := .done ⟨st, info⟩ }

/-- What follows a group step's writes (R22): the next group, or after the last of `total` groups the OK response. -/
def State.endGroup (s : State) (c : Context) (total v : Nat) : State :=
  if c.g + 1 = total then s.respond v else { s with mode := .run { c with g := c.g + 1 } }

/-! What is lent, and breaches of the host's duties. -/

/-- The number of destination cells lent to the operation in flight. -/
def State.lentDst (s : State) : Nat :=
  match s.loan with
  | some l => l.dstCap
  | none => 0

/-- The number of source cells lent to the operation in flight. -/
def State.lentSrc (s : State) : Nat :=
  match s.loan with
  | some l => l.srcLen
  | none => 0

/-- Some cell is lent: the operation in flight has a buffer a breach can reach. ENCLEN and the reserved code never have one
(R101, R165; assumption 9), so no breach reaches them and their response is a function of the command word alone (R12). -/
def State.hasBuffers (s : State) : Bool := decide (0 < s.lentSrc) || decide (0 < s.lentDst)

/-- Memory cell `a` is one of the `n` cells from `base`. -/
def inWindow (base n a : Nat) : Bool := decide (base ≤ a) && decide (a < base + n)

/-- `Disjoint` of R194 fails: some cell is both one of `SRC[0..n-1]` and one of `DST[0..cap-1]` (R199). -/
def State.overlaps (s : State) (n cap : Nat) : Bool :=
  decide (0 < n) && decide (0 < cap) && decide (s.srcBase < s.dstBase + cap) && decide (s.dstBase < s.srcBase + n)

/-- What a spoiled operation leaves in its destination: `any` in all of `DST[0..dst_cap-1]` (R197, R199; U7, U8;
assumption 10). -/
def State.settle (s : State) : State := if s.spoiled then s.anyDst 0 s.lentDst else s

/-! Accept, take, reset. -/

/-- The frame of every accept step (R21, R196): enabled only in `IDLE`, out of reset. The offered word is consumed, the
buffers of the command are lent, and `k` does the rest; otherwise the command is not accepted and nothing changes. -/
def State.accept (s : State) (l : Loan) (k : State → State) : State :=
  match s.mode, s.rst with
  | .idle, false =>
    k { s with cmd := none, loan := some l, spoiled := s.overlaps l.srcLen l.dstCap, bus := [] }
  | _, _ => s

/-- The take step (R23, R169), the only return: the host gets the response word, the response is discarded, the buffers go
back to the host. The outcome of a spoiled operation is `any` (R197, R199). -/
def State.takeResponse (s : State) (r : Response) : State :=
  let t := s.settle
  { t with
    mode := .idle, take := false, loan := none, spoiled := false, bus := []
    received := t.received ++ [if s.spoiled then Config.freeRspWord t.draws else r.word]
    draws := if s.spoiled then t.draws + 1 else t.draws }

/-- `rst` asserted (R190, R191): the unit is in its reset state; an operation in flight ends without a response and leaves
`any` in the destination cells it was allowed to write (assumption 20). -/
def State.assertReset (s : State) : State :=
  { s.anyDst 0 s.lentDst with mode := .idle, loan := none, spoiled := false, rst := true, bus := [] }

/-- `rst` released (R190): the unit is in its reset state still, and accepts a command as soon as one is offered. -/
def State.releaseReset (s : State) : State := { s with rst := false, bus := [] }

end Sys2Proof.Machine
end

