-- ==== Sys2Proof/Machine/Decoder.lean ====
section
/-! DEFINITION. The family DECODE: the accept step, which is the instruction's own meaning, and the group steps that carry
an accepted DECODE out (42_decode.md). -/

namespace Sys2Proof.Machine

/-- DECODE, accept step on a nonempty input of whole groups (R132, steps 3 to 5): read `SRC[m-1]`, then `SRC[m-2]`, count
the pads, check the capacity, enter `RUN`. -/
def acceptDecode (cap m : Nat) (s : State) : State :=
  let p := padcount (s.srcCell (m - 1)) (s.srcCell (m - 2))
  let t := (s.noteRead (m - 1)).noteRead (m - 2)
  if cap < declen m p then t.raise .precondition causeCapacity
  else { t with mode := .run { op := .decode, n := m, cap := cap, p := p, g := 0 } }

/-- DECODE, accept step (R132): the length check, the empty input, then the rest. No character is validated here. -/
def execDecode (cap m : Nat) (s : State) : Host.Outcome State Fault Refusal :=
  .next (s.accept ⟨m, cap⟩ fun t =>
    if m % 4 ≠ 0 then t.raise .precondition causeLength
    else if m = 0 then t.respond 0
    else acceptDecode cap m t)

/-- What an accepted character of a group stands for. -/
inductive Field where
  /-- A sextet. -/
  | data (v : Sextet)
  /-- A pad in a legal position. -/
  | pad
  deriving DecidableEq, Repr

/-- A pad may stand at position `i` of group `C_G` (R135): only in the last group, only in its last `C_P` positions. -/
def padLegal (c : Context) (i : Nat) : Bool := decide (c.g + 1 = decodeGroups c.n) && decide (4 - c.p.val ≤ i)

/-- The character at position `i` of group `C_G`, looked up and validated (R133, R134, R136); none when it is not
acceptable where it stands. -/
def fieldAt (c : Context) (s : State) (i : Nat) : Option Field :=
  match dec (s.srcCell (4 * c.g + i)) with
  | .sextet v => some (.data v)
  | .pad => if padLegal c i then some .pad else none
  | .inv => none

/-- `raise INVALID_CHAR(4g + i)` (R134, R136), with the destination left as R141 says: `DST[3g..C_CAP-1]` are `any`
(assumption 19). -/
def invalidAt (c : Context) (s : State) (i : Nat) : State :=
  (s.anyDst (3 * c.g) c.cap).raise .invalidChar (4 * c.g + i)

/-- A destination write of a DECODE group: never at or beyond `dst_cap` (R43). Only a source that changed since the accept
step counted the pads (R197) could ask for such a write (assumption 6). -/
def writeInCap (c : Context) (j : Nat) (v : Byte) (s : State) : State := if j < c.cap then s.writeDst j v else s

/-- `MemWrite(DST[3g+1])` unless `f2` is the pad (R138). -/
def writeByte1 (c : Context) (f1 : Sextet) (f2 : Field) (s : State) : State :=
  match f2 with
  | .data v => writeInCap c (3 * c.g + 1) (byte1 f1 v) s
  | .pad => s

/-- `MemWrite(DST[3g+2])` unless `f3` is the pad (R138). A pad in `f2` with a sextet in `f3` gives the byte no formula; it
too needs a source that changed (R197), and nothing is written (assumption 6). -/
def writeByte2 (c : Context) (f2 f3 : Field) (s : State) : State :=
  match f2, f3 with
  | .data v, .data w => writeInCap c (3 * c.g + 2) (byte2 v w) s
  | .pad, .data _ => s
  | _, .pad => s

/-- DECODE, group step, second half: byte reconstruction (R83, R138) and completion (R143). -/
def decodeBytes3 (c : Context) (f0 f1 : Sextet) (f2 f3 : Field) (s : State) : State :=
  let t := s.writeDst (3 * c.g) (byte0 f0 f1)
  (writeByte2 c f2 f3 (writeByte1 c f1 f2 t)).endGroup c (decodeGroups c.n) (declen c.n c.p)

/-- DECODE, group step, positions 2 and 3 of the group (R133), each validated before the next is read. -/
def decodeHigh (c : Context) (f0 f1 : Sextet) (s : State) : State :=
  let s2 := s.noteRead (4 * c.g + 2)
  match fieldAt c s 2 with
  | none => invalidAt c s2 2
  | some f2 =>
    let s3 := s2.noteRead (4 * c.g + 3)
    match fieldAt c s2 3 with
    | none => invalidAt c s3 3
    | some f3 => decodeBytes3 c f0 f1 f2 f3 s3

/-- DECODE, group step, positions 0 and 1 of the group (R133). No pad is legal there (R135), so anything but a sextet is
`INVALID_CHAR`. -/
def decodeLow (c : Context) (s : State) : State :=
  let s0 := s.noteRead (4 * c.g)
  match fieldAt c s 0 with
  | some (.data f0) =>
    let s1 := s0.noteRead (4 * c.g + 1)
    match fieldAt c s0 1 with
    | some (.data f1) => decodeHigh c f0 f1 s1
    | _ => invalidAt c s1 1
  | _ => invalidAt c s0 0

/-- DECODE, group step (R22, R133 to R138). -/
def decodeGroup (c : Context) (s : State) : Host.Outcome State Fault Refusal :=
  if c.g < decodeGroups c.n then .next (decodeLow c s.quiet) else .fault .noSuchGroup

end Sys2Proof.Machine
end

