-- ==== Sys2Proof/Machine/Enclen.lean ====
section
/-! DEFINITION. The family ENCLEN: the encoded-length calculator (40_enclen.md). -/

namespace Sys2Proof.Machine

/-- ENCLEN (R101): completed by the accept step alone. It touches no buffer, so it is lent none (assumption 9); `dst_cap` is ignored
(R73); the response is `(OK, enclen(n))` with no check and no wrap (R103). -/
def execEnclen (_cap n : Nat) (s : State) : Host.Outcome State Fault Refusal :=
  .next (s.accept ⟨0, 0⟩ fun t => t.respond (enclen n))

end Sys2Proof.Machine
end

