-- ==== Sys2Proof/Machine/Encoder.lean ====
section
/-! DEFINITION. The family ENCODE: the accept step, which is the instruction's own meaning, and the group steps that carry
an accepted ENCODE out (41_encode.md). -/

namespace Sys2Proof.Machine

/-- ENCODE, accept step (R111): no cell is read or written. Too small a capacity is `PRECONDITION(2)`; the empty input ends
at once with `(OK, 0)`; otherwise the operation enters `RUN` at group 0. -/
def execEncode (cap n : Nat) (s : State) : Host.Outcome State Fault Refusal :=
  .next (s.accept ⟨n, cap⟩ fun t =>
    if cap < enclen n then t.raise .precondition causeCapacity
    else if n = 0 then t.respond 0
    else { t with mode := .run { op := .encode, n := n, cap := cap, p := 0, g := 0 } })

/-- ENCODE, group step on a complete group (R112). -/
def encodeFull (c : Context) (s : State) : State :=
  let b0 := s.srcCell (3 * c.g)
  let b1 := s.srcCell (3 * c.g + 1)
  let b2 := s.srcCell (3 * c.g + 2)
  let t := ((s.noteRead (3 * c.g)).noteRead (3 * c.g + 1)).noteRead (3 * c.g + 2)
  (t.writeDstAll (4 * c.g) (fullSymbols b0 b1 b2)).endGroup c (encodeGroups c.n) 0

/-- ENCODE, group step on a one-byte tail (R113). -/
def encodeTail1 (c : Context) (s : State) : State :=
  let b0 := s.srcCell (3 * c.g)
  ((s.noteRead (3 * c.g)).writeDstAll (4 * c.g) (tailSymbols1 b0)).endGroup c (encodeGroups c.n) 0

/-- ENCODE, group step on a two-byte tail (R114). -/
def encodeTail2 (c : Context) (s : State) : State :=
  let b0 := s.srcCell (3 * c.g)
  let b1 := s.srcCell (3 * c.g + 1)
  let t := (s.noteRead (3 * c.g)).noteRead (3 * c.g + 1)
  (t.writeDstAll (4 * c.g) (tailSymbols2 b0 b1)).endGroup c (encodeGroups c.n) 0

/-- ENCODE, group step (R18, R22, R112 to R114): which of the three cases group `C_G` is. -/
def encodeGroup (c : Context) (s : State) : Host.Outcome State Fault Refusal :=
  if c.g < c.n / 3 then .next (encodeFull c s.quiet)
  else if c.g = c.n / 3 ∧ c.n % 3 = 1 then .next (encodeTail1 c s.quiet)
  else if c.g = c.n / 3 ∧ c.n % 3 = 2 then .next (encodeTail2 c s.quiet)
  else .fault .noSuchGroup

end Sys2Proof.Machine
end

