-- ==== Sys2Proof/Machine/Reserved.lean ====
section
/-! DEFINITION. The reserved operation code `op = 3` (R72, R165). -/

namespace Sys2Proof.Machine

/-- `op = 3`: accepted and answered `(ILLEGAL_OP, 0)` with no access; both fields are ignored, so no buffer is lent
(assumption 9). -/
def execReserved3 (_cap _n : Nat) (s : State) : Host.Outcome State Fault Refusal :=
  .next (s.accept ⟨0, 0⟩ fun t => t.raise .illegalOp 0)

end Sys2Proof.Machine
end

