-- ==== Sys2Proof/Machine/Dispatch.lean ====
section
/-! DEFINITION. One arm per command: its accept step. -/

namespace Sys2Proof.Machine

/-- The accept step of a command (R21), by its operation. -/
def exec (i : Instr) (s : State) : Host.Outcome State Fault Refusal :=
  match i with
  | .enclen cap n => Sys2Proof.Machine.execEnclen cap n s
  | .encode cap n => Sys2Proof.Machine.execEncode cap n s
  | .decode cap n => Sys2Proof.Machine.execDecode cap n s
  | .reserved3 cap n => Sys2Proof.Machine.execReserved3 cap n s

end Sys2Proof.Machine
end

