-- ==== Sys2Proof/Machine/HostSide.lean ====
section
/-! DEFINITION. The host side: what each act of the host does to the machine (R193, R196 to R200, R204, T-HOST), and the
agenda of a program of commands (R74). -/

namespace Sys2Proof.Machine

/-- A write of the host's memory (R193, R200). Inside a lent buffer it is the breach of R197 or R198, and the outcome of
the operation in flight is `any` (R194, assumption 10). -/
def State.poke (s : State) (a : Nat) (v : Byte) : State :=
  { s with
    mem := Memory.write s.mem a v
    spoiled := s.spoiled || inWindow s.srcBase s.lentSrc a || inWindow s.dstBase s.lentDst a }

/-- A read of the host's memory. Of a lent destination cell it sees `any` (R198, assumption 11); of any other cell,
the byte. -/
def State.peek (s : State) (a : Nat) : State :=
  if inWindow s.dstBase s.lentDst a then
    { s with observed := s.observed ++ [Config.freeByte s.draws], draws := s.draws + 1 }
  else { s with observed := s.observed ++ [s.cell a] }

/-- The ports bound to other buffers (R193, R200). The host may do so between operations; during one that was lent any
buffer it takes both away from it, which R197 and R198 forbid: the cells lent so far and the outcome are `any` (assumption
7). An operation without buffers loses nothing, and its response stands (R12, R101). -/
def State.bindTo (s : State) (src dst : Nat) : State :=
  { s.anyDst 0 s.lentDst with srcBase := src, dstBase := dst, spoiled := s.spoiled || s.hasBuffers }

/-- One act of the host. `turn` and `wait` are not acts of the host but the unit's turns; Machine/Unit.lean runs them. -/
def State.hostAct (s : State) : HostAct → State
  | .offer w => { s with cmd := w }
  | .takeReady ready => { s with take := ready }
  | .rst true => s.assertReset
  | .rst false => s.releaseReset
  | .poke a v => s.poke a v
  | .peek a => s.peek a
  | .bindPorts src dst => s.bindTo src dst
  | .turn => s
  | .wait => s

/-- The agenda of a program (R74): the commands "issued one after the other, each after the previous response was taken". -/
def programAgenda : List CmdWord → List HostAct
  | [] => []
  | w :: ws => .offer (some w) :: .takeReady true :: .wait :: programAgenda ws

end Sys2Proof.Machine
end

