-- ==== Sys2Proof/Machine/Unit.lean ====
section
/-! DEFINITION. The unit's own step, in each mode (R20), and the interleaving of unit and host that the agenda fixes. -/

namespace Sys2Proof.Machine

/-- Group step (R22), by the operation in flight. -/
def groupStep (c : Context) (s : State) : Host.Outcome State Fault Refusal :=
  match c.op with
  | .encode => encodeGroup c s
  | .decode => decodeGroup c s

/-- The unit's step (R20): accept in `IDLE` when a command is offered, a group step in `RUN`, take in `DONE` when the host
takes. Where none is enabled the unit stays as it is, for as long as the host likes (R195, R201, U12); so it does while
`rst` is asserted (R190; assumption 13). A command offered outside `IDLE` is neither lost nor taken (R196). -/
def unitStep (s : State) : Host.Outcome State Fault Refusal :=
  if s.rst then .next s.quiet
  else
    match s.mode with
    | .idle =>
      match s.cmd with
      | some w => exec (decodeWord w) s
      | none => .next s.quiet
    | .run c => groupStep c s
    | .done r => if s.take then .next (s.takeResponse r) else .next s.quiet

/-- The unit has a step of its own to make (R20, R201). -/
def State.unitEnabled (s : State) : Bool :=
  !s.rst &&
    match s.mode with
    | .idle => s.cmd.isSome
    | .run _ => true
    | .done _ => s.take

/-- The next step of the machine: the agenda says whose it is; when it is empty the unit steps (assumption 14). -/
def advance (s : State) : Host.Outcome State Fault Refusal :=
  match s.agenda with
  | [] => unitStep s
  | .turn :: rest => unitStep { s with agenda := rest }
  | .wait :: rest => if s.unitEnabled then unitStep s else .next { s.quiet with agenda := rest }
  | act :: rest => .next ({ s.quiet with agenda := rest }.hostAct act)

/-- The state in which the next step is the accept step of the word `w`: it is offered to an idle unit out of reset, with
nothing in flight, and the agenda gives the unit its turn. -/
def State.presentWord (s : State) (w : CmdWord) : State :=
  { s with mode := .idle, rst := false, cmd := some w, loan := none, spoiled := false, agenda := .turn :: s.agenda }

end Sys2Proof.Machine
end

