-- ==== Sys2Proof/Machine/Step.lean ====
section
/-! DEFINITION. The step of the machine, and where it finds its next command. -/

namespace Sys2Proof.Machine

/-- One step (R20, R204). -/
def step (s : State) : Host.Outcome State Fault Refusal := advance s

/-- The state whose next step runs the command with the opcode table's bits `w` (the host's fixed name). The unit fetches
nothing (R11, R53): its next command is the one the host offers, so this is the host offering it (assumption 8). -/
def State.withFetchWord (s : State) (_nbits w : Nat) : State := s.presentWord (BitVec.ofNat 66 w)

end Sys2Proof.Machine
end

