-- ==== Sys2Proof/Machine/Codec.lean ====
section
/-! DEFINITION. The two functions the source document settles, `encode` (R110) and `decode` (R130), on whole sequences of
cells, with no machine and no steps. Machine/Transaction.lean says what an operation comes to in terms of them (R24). -/

namespace Sys2Proof.Machine

/-- `encode(B)` (R110): full groups of three bytes, then the one- or two-byte tail. -/
def codecEncode : List Byte → List Byte
  | b0 :: b1 :: b2 :: rest => fullSymbols b0 b1 b2 ++ codecEncode rest
  | [b0, b1] => tailSymbols2 b0 b1
  | [b0] => tailSymbols1 b0
  | [] => []

/-- `padcount(S, m)` of a whole input (R131): 0 when it is empty. -/
def codecPadcount (S : List Byte) : Nat :=
  if S.length = 0 then 0 else (padcount (S.getD (S.length - 1) 0#8) (S.getD (S.length - 2) 0#8)).val

/-- Index `j` of `S` is bad (R130): no alphabet character and no pad among the last `padcount` indices. -/
def codecBad (S : List Byte) (j : Nat) : Bool :=
  match dec (S.getD j 0#8) with
  | .sextet _ => false
  | .pad => decide (j + codecPadcount S < S.length)
  | .inv => true

/-- The least bad index, if any (R130, R137). -/
def firstBad (S : List Byte) : Option Nat := (List.range S.length).find? (codecBad S)

/-- The bytes of one group of fields (R130, R138). The shapes that give none hold a bad index. -/
def bytesOfFields : DecEntry → DecEntry → DecEntry → DecEntry → List Byte
  | .sextet f0, .sextet f1, .sextet f2, .sextet f3 => [byte0 f0 f1, byte1 f1 f2, byte2 f2 f3]
  | .sextet f0, .sextet f1, .sextet f2, .pad => [byte0 f0 f1, byte1 f1 f2]
  | .sextet f0, .sextet f1, .pad, .pad => [byte0 f0 f1]
  | _, _, _, _ => []

/-- The bytes of a sequence of whole groups (R130). -/
def bytesOfGroups : List Byte → List Byte
  | c0 :: c1 :: c2 :: c3 :: rest => bytesOfFields (dec c0) (dec c1) (dec c2) (dec c3) ++ bytesOfGroups rest
  | _ => []

/-- `decode(S)` (R130): the bytes, or the first bad index. -/
def codecDecode (S : List Byte) : Except Nat (List Byte) :=
  match firstBad S with
  | some k => .error k
  | none => .ok (bytesOfGroups S)

end Sys2Proof.Machine
end

