-- ==== Sys2Proof/Machine/Transaction.lean ====
section
/-! DEFINITION. The transaction view of an operation (R24): one transition from the command and the buffers to the response
and the destination. The machine does not call this file: statements compare its steps with it. -/

namespace Sys2Proof.Machine

/-- What an operation comes to: its response, the cells it writes from `DST[0]` on, and from which cell on the destination
is `any`, if at all (R54, R141). -/
structure Result where
  rsp : Response
  cells : List Byte
  anyFrom : Option Nat
  deriving DecidableEq, Repr

/-- The outcome of a command on a source `S`, by the order of checks of R163. -/
def resultOf (i : Instr) (S : List Byte) : Result :=
  match i with
  | .reserved3 _ _ => ⟨⟨.illegalOp, 0⟩, [], none⟩
  | .enclen _ n => ⟨⟨.ok, enclen n⟩, [], none⟩
  | .encode cap n =>
    if cap < enclen n then ⟨⟨.precondition, causeCapacity⟩, [], none⟩ else ⟨⟨.ok, 0⟩, codecEncode S, none⟩
  | .decode cap m =>
    if m % 4 ≠ 0 then ⟨⟨.precondition, causeLength⟩, [], none⟩
    else if cap < declen m (codecPadcount S) then ⟨⟨.precondition, causeCapacity⟩, [], none⟩
    else
      match codecDecode S with
      | .ok B => ⟨⟨.ok, declen m (codecPadcount S)⟩, B, none⟩
      | .error k => ⟨⟨.invalidChar, k⟩, bytesOfGroups (S.take (4 * (k / 4))), some (3 * (k / 4))⟩

/-- The number of the unit's steps, accept and take included (10_state.md section 4). -/
def unitSteps (i : Instr) (S : List Byte) : Nat :=
  match i with
  | .reserved3 _ _ => 2
  | .enclen _ _ => 2
  | .encode cap n => if cap < enclen n then 2 else 2 + (n + 2) / 3
  | .decode _ m =>
    match (resultOf i S).rsp.status with
    | .ok => 2 + m / 4
    | .invalidChar => 2 + (resultOf i S).rsp.value / 4 + 1
    | _ => 2

/-- The first `n` cells of the source buffer. -/
def State.source (s : State) (n : Nat) : List Byte := (List.range n).map s.srcCell

/-- The whole operation as one transition (R24), from the offer of the command to the response taken. -/
def transact (i : Instr) (s : State) : State :=
  let r := resultOf i (s.source i.srcLen)
  let t := { s with cmd := none, take := false, mem := Memory.writeAll s.mem s.dstBase r.cells }
  let u :=
    match r.anyFrom with
    | some lo => t.anyDst lo i.dstCap
    | none => t
  { u with received := s.received ++ [r.rsp.word], bus := [] }

end Sys2Proof.Machine
end

