-- ==== Sys2Proof/Safety.lean ====
section
/-! DEFINITION. What claims are stated in terms of: the launch premises of a command (R194), the responses each operation
may end with (R162), and the invariants of the machine. -/

namespace Sys2Proof.Machine

/-! Launch premises (R194). -/

/-- `UnitIdle`: `MODE = IDLE`; with it, that the unit is out of reset (R190). -/
abbrev UnitIdle (s : State) : Prop := s.mode = .idle ∧ s.rst = false

/-- `LenOk`: a DECODE has whole groups. -/
def lenOk : Instr → Bool
  | .decode _ m => decide (m % 4 = 0)
  | _ => true

/-- `CapOk`: the destination holds what the operation writes, for the pad count of source `S`. -/
def capOk (i : Instr) (S : List Byte) : Bool :=
  match i with
  | .encode cap n => decide (enclen n ≤ cap)
  | .decode cap m => decide (declen m (codecPadcount S) ≤ cap)
  | _ => true

/-- `OpOk`: not the reserved code. -/
def opOk : Instr → Bool
  | .reserved3 _ _ => false
  | _ => true

/-- `Disjoint`, for an operation that reaches the buffers: no cell is in both. -/
def disjointOk (i : Instr) (s : State) : Bool :=
  match i with
  | .encode cap n => !s.overlaps n cap
  | .decode cap m => !s.overlaps m cap
  | _ => true

/-- The host offers a command to an idle unit, is ready to take its response, and makes no other act meanwhile: with it
`SrcFilled` and `DstOwned` hold until the response is taken. -/
abbrev Launched (i : Instr) (s : State) : Prop :=
  UnitIdle s ∧ s.cmd = some (encodeWord i) ∧ s.take = true ∧ s.spoiled = false ∧ s.loan = none ∧ s.agenda = []

/-! Responses. -/

/-- The statuses an operation can end with (R162). -/
def statusOf : Instr → List Status
  | .enclen _ _ => [.ok]
  | .encode _ _ => [.ok, .precondition]
  | .decode _ _ => [.ok, .invalidChar, .precondition]
  | .reserved3 _ _ => [.illegalOp]

/-- A response that does not show a host bug (R164, R165). -/
def Response.clean (r : Response) : Bool :=
  match r.status with
  | .ok | .invalidChar => true
  | .precondition | .illegalOp => false

/-! Invariants. -/

/-- The number of groups of the operation in flight (R18). -/
def Context.groups (c : Context) : Nat :=
  match c.op with
  | .encode => encodeGroups c.n
  | .decode => decodeGroups c.n

/-- What holds of the context in `RUN` (table T-CTX, R16 to R18, R111, R132): the fields fit their widths, the input is not
empty, a group is left, and the capacity was checked. -/
def Context.ok (c : Context) : Bool :=
  decide (0 < c.n) && decide (c.n < 2 ^ Config.lenW) && decide (c.cap < 2 ^ Config.lenW) && decide (c.g < c.groups) &&
    match c.op with
    | .encode => decide (enclen c.n ≤ c.cap) && decide (c.p = 0)
    | .decode => decide (c.n % 4 = 0) && decide (declen c.n c.p ≤ c.cap)

/-- What holds of a pending response (R160, R161): its value fits `VAL_W` bits and is what its status records, for an
operation that was lent `n` source cells. -/
def Response.ok (r : Response) (n : Nat) : Bool :=
  decide (r.value < 2 ^ Config.valW) &&
    match r.status with
    | .ok => true
    | .invalidChar => decide (r.value < n)
    | .precondition => decide (r.value = 1) || decide (r.value = 2)
    | .illegalOp => decide (r.value = 0)

/-- What holds of the mode and the loan together: nothing is lent in `IDLE`; in `RUN` exactly the buffers of the context
(T-HOST); in `DONE` a legal response is pending and the buffers are still lent, and the mark `spoiled` is only on an
operation that has some (R12, R101). -/
def State.modeOk (s : State) : Bool :=
  match s.mode with
  | .idle => decide (s.loan = none) && !s.spoiled
  | .run c => c.ok && decide (s.loan = some ⟨c.n, c.cap⟩)
  | .done r => r.ok s.lentSrc && s.loan.isSome && (!s.spoiled || s.hasBuffers)

/-- The invariant: the memory is canonical, the mode is consistent, and `rst` holds the unit in `IDLE` (R190). -/
abbrev Inv (s : State) : Prop :=
  Memory.wf s.mem ∧ s.modeOk = true ∧ (s.rst = true → s.mode = .idle)

/-- `C_P` is the pad count of the source as it stands (R17), for a DECODE in flight that no breach has spoiled. -/
abbrev PadCountHolds (s : State) : Prop :=
  match s.mode with
  | .run c =>
    c.op = .decode → s.spoiled = false →
      s.overlaps c.n c.cap = false ∧ c.p = padcount (s.srcCell (c.n - 1)) (s.srcCell (c.n - 2))
  | _ => True

/-- The access stays inside the `n` source cells and `cap` destination cells lent to the operation (R43). -/
def Access.inside (n cap : Nat) : Access → Bool
  | .srcRead i _ => decide (i < n)
  | .dstWrite j _ => decide (j < cap)

/-- The source index of a read; none for a write. -/
def Access.readIndex : Access → Option Nat
  | .srcRead i _ => some i
  | .dstWrite _ _ => none

/-- The destination index of a write; none for a read. -/
def Access.writeIndex : Access → Option Nat
  | .srcRead _ _ => none
  | .dstWrite j _ => some j

/-! Runs. -/

/-- `k` steps of the machine. -/
abbrev runSteps (k : Nat) (s : State) : Host.Outcome State Fault Refusal := Host.Core.run Sys2Proof.core k s

/-- The machine is about to make a step of the unit's own: out of reset, with no act of the host before it. -/
abbrev UnitsTurn (s : State) : Prop := s.rst = false ∧ s.agenda = []

/-! What the text of a Base64 input says about its bits. -/

/-- The character `ch` is acceptable at position `i` of the group of `c` (R134 to R136). -/
abbrev positionOk (c : Context) (i : Nat) (ch : Byte) : Bool :=
  match dec ch with
  | .sextet _ => true
  | .pad => padLegal c i
  | .inv => false

/-- The bits that decoding drops are zero (R139): the low two of the last sextet before one pad, the low four before two. -/
def droppedBitsZero (S : List Byte) : Bool :=
  match codecPadcount S with
  | 0 => true
  | 1 =>
    match dec (S.getD (S.length - 2) 0#8) with
    | .sextet v => decide (v.extractLsb' 0 2 = 0#2)
    | _ => false
  | _ =>
    match dec (S.getD (S.length - 3) 0#8) with
    | .sextet v => decide (v.extractLsb' 0 4 = 0#4)
    | _ => false

end Sys2Proof.Machine
end

