-- ==== Sys2Proof/Certificates/Slice0/Obligations.lean ====
section
/-! DEFINITION. The statements about the model, for the provers. Each docstring names the rule or the section it formalises.
Where a statement speaks of `loan`, `spoiled`, `agenda`, `received`, `observed`, `bus` or `draws`, it speaks of the model's
own fields for the host side (INVENTORY.md); no statement rests on the value of a free value. -/

open Sys2Proof Sys2Proof.Machine

/-! Encoding. -/

/-- Words written out from 30_encoding.md section 1 and 95_test_vectors.md Part 2 decode to their commands; a number with a
bit above bit 65 is no command word (R70: one length only). -/
def Obligations.SampleCommandWordsDecode : Prop :=
  decodeWord 0x00000000000000005#66 = .enclen 0 5 ∧
  decodeWord 0x0FFFFFFFF00000005#66 = .enclen 4294967295 5 ∧
  decodeWord 0x10000000A00000001#66 = .encode 10 1 ∧
  decodeWord 0x20000000300000004#66 = .decode 3 4 ∧
  decodeWord 0x30000000400000001#66 = .reserved3 4 1 ∧
  ∀ nbits w : Nat, 2 ^ 66 ≤ w → decodeTableWord nbits w = none

/-- Decoding the word of a well-formed command gives the command back: no bit of a command is dropped (R70, R71). -/
def Obligations.DecodeOfEncodeIsTheCommand : Prop :=
  ∀ i : Instr, i.wf = true → decodeWord (encodeWord i) = i

/-- Every 66-bit word is the word of the well-formed command it decodes to: "every value of `dst_cap` and `src_len` is legal
in the word" (R72), and each word has one meaning. -/
def Obligations.EveryWordIsTheWordOfItsCommand : Prop :=
  ∀ w : CmdWord, (decodeWord w).wf = true ∧ encodeWord (decodeWord w) = w

/-- The layout of the command word (R70) and the four codes (R71, R72), as 95_test_vectors.md writes it:
`op << 64 | dst_cap << 32 | src_len`. -/
def Obligations.CommandWordLayout : Prop :=
  ∀ cap n : Nat, cap < 2 ^ 32 → n < 2 ^ 32 →
    (encodeWord (.enclen cap n)).toNat = 0 * 2 ^ 64 + cap * 2 ^ 32 + n ∧
    (encodeWord (.encode cap n)).toNat = 1 * 2 ^ 64 + cap * 2 ^ 32 + n ∧
    (encodeWord (.decode cap n)).toNat = 2 * 2 ^ 64 + cap * 2 ^ 32 + n ∧
    (encodeWord (.reserved3 cap n)).toNat = 3 * 2 ^ 64 + cap * 2 ^ 32 + n

/-- The layout of the response word (R75) and the four status codes (R160): `status << 33 | value`. -/
def Obligations.ResponseWordLayout : Prop :=
  ∀ v : Nat, v < 2 ^ 33 →
    (Response.word ⟨.ok, v⟩).toNat = 0 * 2 ^ 33 + v ∧
    (Response.word ⟨.invalidChar, v⟩).toNat = 1 * 2 ^ 33 + v ∧
    (Response.word ⟨.precondition, v⟩).toNat = 2 * 2 ^ 33 + v ∧
    (Response.word ⟨.illegalOp, v⟩).toNat = 3 * 2 ^ 33 + v

/-! A step runs the offered command. -/

/-- When an idle unit out of reset is offered a word and the turn is the unit's, the step is `exec` of the command the word
decodes to; when the agenda gives it the turn, the agenda moves on by that entry and nothing else is added. -/
def Obligations.OfferedCommandIsExecuted : Prop :=
  ∀ (s : State) (w : CmdWord), UnitIdle s → s.cmd = some w →
    (s.agenda = [] → step s = exec (decodeWord w) s) ∧
    (∀ rest, s.agenda = .turn :: rest → step s = exec (decodeWord w) { s with agenda := rest })

/-- The command that the opcode table's bits stand for is the one the next step executes when they are offered
(`withFetchWord`), from any state; an offer in place of a fetch is the model's convention (assumption 8). -/
def Obligations.PresentedBitsAreTheNextCommand : Prop :=
  ∀ (s : State) (nbits w : Nat), w < 2 ^ 66 →
    ∃ i, decodeTableWord nbits w = some i ∧ i.wf = true ∧
      step (s.withFetchWord nbits w) = exec i { s.withFetchWord nbits w with agenda := s.agenda }

/-! Accept steps: one statement for each command says that it completes, and with what state. -/

/-- ENCLEN (R101), `op = 0`: from every idle state, whatever `dst_cap` is, the accept step alone ends the operation with
`(OK, ((n + 2) / 3) * 4)`, exactly (0 gives 0; `2^32 - 1` gives 5726623060), with no access and no change of memory. Beside
the mode only the offer, what is lent and the bus can change. -/
def Obligations.EnclenAnswersTheEncodedLength : Prop :=
  (∀ (s : State) (cap n : Nat), UnitIdle s →
    ∃ t, exec (.enclen cap n) s = .next t ∧ t.mode = .done ⟨.ok, (n + 2) / 3 * 4⟩ ∧ t.bus = [] ∧
      t = { s with mode := t.mode, cmd := t.cmd, loan := t.loan, spoiled := t.spoiled, bus := t.bus }) ∧
  (∀ cap n, CmdWord.op (encodeWord (.enclen cap n)) = 0#2) ∧
  (0 + 2) / 3 * 4 = 0 ∧ (2 ^ 32 - 1 + 2) / 3 * 4 = 5726623060

/-- ENCODE, accept step (R111), `op = 1`: from every idle state, `PRECONDITION(2)` when the capacity is below `enclen(n)`,
`(OK, 0)` for the empty input, else `RUN` at group 0 with the context of table T-CTX; no access, no change of memory. Beside
the mode only the offer, what is lent and the bus can change. -/
def Obligations.EncodeAcceptStep : Prop :=
  (∀ (s : State) (cap n : Nat), UnitIdle s →
    ∃ t, exec (.encode cap n) s = .next t ∧
      t.mode = (if cap < (n + 2) / 3 * 4 then .done ⟨.precondition, 2⟩
        else if n = 0 then .done ⟨.ok, 0⟩
        else .run { op := .encode, n := n, cap := cap, p := 0, g := 0 }) ∧
      t.bus = [] ∧ t = { s with mode := t.mode, cmd := t.cmd, loan := t.loan, spoiled := t.spoiled, bus := t.bus }) ∧
  (∀ cap n, CmdWord.op (encodeWord (.encode cap n)) = 1#2)

/-- DECODE, accept step (R132, whose steps (2) and (4) are decisions D9 and D14 of the spec): from every idle state, in this
order, `PRECONDITION(1)` for a length that is no multiple of 4, `(OK, 0)` for the empty input, both with no access; else the
reads of `SRC[m-1]` and `SRC[m-2]`, the pad count of R131, then `PRECONDITION(2)` or `RUN` at group 0. The whole next state
is given. -/
def Obligations.DecodeAcceptStep : Prop :=
  ∀ (s : State) (cap m : Nat), UnitIdle s →
    let c1 := s.srcCell (m - 1)
    let c2 := s.srcCell (m - 2)
    let p : Fin 3 := if c1 ≠ 0x3D#8 then 0 else if c2 ≠ 0x3D#8 then 1 else 2
    exec (.decode cap m) s = .next { s with
      mode :=
        if m % 4 ≠ 0 then .done ⟨.precondition, 1⟩
        else if m = 0 then .done ⟨.ok, 0⟩
        else if cap < m / 4 * 3 - p then .done ⟨.precondition, 2⟩
        else .run { op := .decode, n := m, cap := cap, p := p, g := 0 }
      bus := if m % 4 ≠ 0 ∨ m = 0 then [] else [.srcRead (m - 1) c1, .srcRead (m - 2) c2]
      cmd := none, loan := some ⟨m, cap⟩, spoiled := s.overlaps m cap }

/-- The reserved code (R72, R165; decision D27 of the spec): from every idle state, whatever the fields are, the answer is
`(ILLEGAL_OP, 0)` with no access. The whole next state is given; that the reserved code is lent no cell, where T-HOST lends
both buffers with every offer, is the model's reading (assumption 9). -/
def Obligations.ReservedCodeIsIllegalOp : Prop :=
  ∀ (s : State) (cap n : Nat), UnitIdle s →
    exec (.reserved3 cap n) s = .next { s with
      mode := .done ⟨.illegalOp, 0⟩, cmd := none, loan := some ⟨0, 0⟩, spoiled := false, bus := [] }

/-- The frame of every accept step (R21: "writes no destination cell"; R54): only the mode, the offer, the loan and the bus
can change; every byte of memory reads as before. From an idle unit out of reset the offer is consumed (table T-REG) and the
buffers are lent (T-HOST; none to ENCLEN and the reserved code, assumption 9), marked spoiled when they overlap (R199). -/
def Obligations.AcceptStepsLendBuffersAndChangeNoCell : Prop :=
  ∀ (i : Instr) (s : State), ∃ t, exec i s = .next t ∧
    t = { s with mode := t.mode, cmd := t.cmd, loan := t.loan, spoiled := t.spoiled, bus := t.bus } ∧
    (∀ a, t.cell a = s.cell a) ∧
    (UnitIdle s → t.cmd = none ∧
      match i with
      | .encode cap n => t.loan = some ⟨n, cap⟩ ∧ t.spoiled = s.overlaps n cap
      | .decode cap n => t.loan = some ⟨n, cap⟩ ∧ t.spoiled = s.overlaps n cap
      | .enclen _ _ => t.loan = some ⟨0, 0⟩ ∧ t.spoiled = false
      | .reserved3 _ _ => t.loan = some ⟨0, 0⟩ ∧ t.spoiled = false)

/-- A command offered outside `IDLE` is not accepted, neither lost nor merged (R196, decision D23 of the spec): `exec` leaves
such a state alone, and no step of the unit there takes the offer away. -/
def Obligations.CommandOutsideIdleStaysOffered : Prop :=
  (∀ (i : Instr) (s : State), s.mode ≠ .idle → exec i s = .next s) ∧
  (∀ s t : State, s.mode ≠ .idle → s.agenda = [] → step s = .next t → t.cmd = s.cmd)

/-! Group steps of ENCODE. In each, `b0`, `b1`, `b2` are the source cells of the group, the sextets are the bit slices of
R79, and every cell outside the four that are written reads as before. -/

/-- ENCODE, complete group (R112), with the bit slices it gives, the four writes in ascending index after the three reads, and
the end of the operation or the next group. -/
def Obligations.EncodeCompleteGroupStep : Prop :=
  ∀ (s : State) (c : Context), UnitsTurn s → s.mode = .run c → c.op = .encode → c.g < c.n / 3 →
    let b0 := s.srcCell (3 * c.g)
    let b1 := s.srcCell (3 * c.g + 1)
    let b2 := s.srcCell (3 * c.g + 2)
    let y0 := alpha (b0.extractLsb' 2 6)
    let y1 := alpha (b0.extractLsb' 0 2 ++ b1.extractLsb' 4 4)
    let y2 := alpha (b1.extractLsb' 0 4 ++ b2.extractLsb' 6 2)
    let y3 := alpha (b2.extractLsb' 0 6)
    ∃ t, step s = .next t ∧
      t.dstCell (4 * c.g) = y0 ∧ t.dstCell (4 * c.g + 1) = y1 ∧ t.dstCell (4 * c.g + 2) = y2 ∧
      t.dstCell (4 * c.g + 3) = y3 ∧
      (∀ a, (a < s.dstBase + 4 * c.g ∨ s.dstBase + 4 * c.g + 4 ≤ a) → t.cell a = s.cell a) ∧
      t.mode = (if c.g + 1 = (c.n + 2) / 3 then .done ⟨.ok, 0⟩ else .run { c with g := c.g + 1 }) ∧
      t.bus = [.srcRead (3 * c.g) b0, .srcRead (3 * c.g + 1) b1, .srcRead (3 * c.g + 2) b2,
        .dstWrite (4 * c.g) y0, .dstWrite (4 * c.g + 1) y1, .dstWrite (4 * c.g + 2) y2, .dstWrite (4 * c.g + 3) y3] ∧
      t = { s with mode := t.mode, mem := t.mem, bus := t.bus }

/-- ENCODE, one-byte tail (R113): one read, two symbols, two pads, `(OK, 0)`. -/
def Obligations.EncodeOneByteTailStep : Prop :=
  ∀ (s : State) (c : Context), UnitsTurn s → s.mode = .run c → c.op = .encode → c.g = c.n / 3 → c.n % 3 = 1 →
    let b0 := s.srcCell (3 * c.g)
    let y0 := alpha (b0.extractLsb' 2 6)
    let y1 := alpha ((b0 &&& 0x03#8).extractLsb' 0 6 <<< 4)
    ∃ t, step s = .next t ∧
      t.dstCell (4 * c.g) = y0 ∧ t.dstCell (4 * c.g + 1) = y1 ∧ t.dstCell (4 * c.g + 2) = 0x3D#8 ∧
      t.dstCell (4 * c.g + 3) = 0x3D#8 ∧
      (∀ a, (a < s.dstBase + 4 * c.g ∨ s.dstBase + 4 * c.g + 4 ≤ a) → t.cell a = s.cell a) ∧
      t.mode = .done ⟨.ok, 0⟩ ∧
      t.bus = [.srcRead (3 * c.g) b0, .dstWrite (4 * c.g) y0, .dstWrite (4 * c.g + 1) y1,
        .dstWrite (4 * c.g + 2) 0x3D#8, .dstWrite (4 * c.g + 3) 0x3D#8] ∧
      t = { s with mode := t.mode, mem := t.mem, bus := t.bus }

/-- ENCODE, two-byte tail (R114, with `s2 = (b1 & 0x0F) << 2` as 90_conflicts.md C3 resolves it): two reads, three symbols,
one pad, `(OK, 0)`. -/
def Obligations.EncodeTwoByteTailStep : Prop :=
  ∀ (s : State) (c : Context), UnitsTurn s → s.mode = .run c → c.op = .encode → c.g = c.n / 3 → c.n % 3 = 2 →
    let b0 := s.srcCell (3 * c.g)
    let b1 := s.srcCell (3 * c.g + 1)
    let y0 := alpha (b0.extractLsb' 2 6)
    let y1 := alpha (b0.extractLsb' 0 2 ++ b1.extractLsb' 4 4)
    let y2 := alpha ((b1 &&& 0x0F#8).extractLsb' 0 6 <<< 2)
    ∃ t, step s = .next t ∧
      t.dstCell (4 * c.g) = y0 ∧ t.dstCell (4 * c.g + 1) = y1 ∧ t.dstCell (4 * c.g + 2) = y2 ∧
      t.dstCell (4 * c.g + 3) = 0x3D#8 ∧
      (∀ a, (a < s.dstBase + 4 * c.g ∨ s.dstBase + 4 * c.g + 4 ≤ a) → t.cell a = s.cell a) ∧
      t.mode = .done ⟨.ok, 0⟩ ∧
      t.bus = [.srcRead (3 * c.g) b0, .srcRead (3 * c.g + 1) b1, .dstWrite (4 * c.g) y0, .dstWrite (4 * c.g + 1) y1,
        .dstWrite (4 * c.g + 2) y2, .dstWrite (4 * c.g + 3) 0x3D#8] ∧
      t = { s with mode := t.mode, mem := t.mem, bus := t.bus }

/-! Group steps of DECODE. -/

/-- DECODE, a group with an unacceptable character (R133, R134, R136, R137): the step ends with `INVALID_CHAR` at the first
such position, whatever follows it; the characters up to it have been read, in order, and no later one; every cell outside
`DST[3g..dst_cap-1]`, the cells R141 makes `any`, reads as before. -/
def Obligations.DecodeGroupReportsTheFirstBadPosition : Prop :=
  ∀ (s : State) (c : Context) (k : Nat), UnitsTurn s → s.mode = .run c → c.op = .decode → c.g < c.n / 4 → k < 4 →
    (∀ j < k, positionOk c j (s.srcCell (4 * c.g + j)) = true) →
    positionOk c k (s.srcCell (4 * c.g + k)) = false →
    ∃ t, step s = .next t ∧ t.mode = .done ⟨.invalidChar, 4 * c.g + k⟩ ∧
      t.bus = (List.range (k + 1)).map (fun j => .srcRead (4 * c.g + j) (s.srcCell (4 * c.g + j))) ∧
      (∀ a, (a < s.dstBase + 3 * c.g ∨ s.dstBase + c.cap ≤ a) → t.cell a = s.cell a) ∧
      t = { s with mode := t.mode, mem := t.mem, bus := t.bus, draws := t.draws }

/-- DECODE, a group of acceptable characters (R138, R143, in the bit terms of R83), in a state that satisfies the invariants
with no breach: the four characters are read once each, in order, and then (R47, R133, R142) the bytes of the sextets are
written, in order, the byte that a pad drops is not, and the operation ends with the decoded length or goes on to the next
group. -/
def Obligations.DecodeGroupWritesItsBytes : Prop :=
  ∀ (s : State) (c : Context) (v0 v1 : Sextet), UnitsTurn s → Inv s → PadCountHolds s → s.spoiled = false →
    s.mode = .run c → c.op = .decode →
    dec (s.srcCell (4 * c.g)) = .sextet v0 → dec (s.srcCell (4 * c.g + 1)) = .sextet v1 →
    positionOk c 2 (s.srcCell (4 * c.g + 2)) = true → positionOk c 3 (s.srcCell (4 * c.g + 3)) = true →
    ∃ t, step s = .next t ∧
      t.dstCell (3 * c.g) = v0 ++ v1.extractLsb' 4 2 ∧
      (∀ v2, dec (s.srcCell (4 * c.g + 2)) = .sextet v2 →
        t.dstCell (3 * c.g + 1) = v1.extractLsb' 0 4 ++ v2.extractLsb' 2 4 ∧
        ∀ v3, dec (s.srcCell (4 * c.g + 3)) = .sextet v3 → t.dstCell (3 * c.g + 2) = v2.extractLsb' 0 2 ++ v3) ∧
      (dec (s.srcCell (4 * c.g + 2)) = .pad → t.dstCell (3 * c.g + 1) = s.dstCell (3 * c.g + 1)) ∧
      (dec (s.srcCell (4 * c.g + 3)) = .pad → t.dstCell (3 * c.g + 2) = s.dstCell (3 * c.g + 2)) ∧
      (∀ a, (a < s.dstBase + 3 * c.g ∨ s.dstBase + 3 * c.g + 3 ≤ a) → t.cell a = s.cell a) ∧
      t.mode = (if c.g + 1 = c.n / 4 then .done ⟨.ok, c.n / 4 * 3 - c.p⟩ else .run { c with g := c.g + 1 }) ∧
      t.bus = [.srcRead (4 * c.g) (s.srcCell (4 * c.g)), .srcRead (4 * c.g + 1) (s.srcCell (4 * c.g + 1)),
        .srcRead (4 * c.g + 2) (s.srcCell (4 * c.g + 2)), .srcRead (4 * c.g + 3) (s.srcCell (4 * c.g + 3)),
        .dstWrite (3 * c.g) (v0 ++ v1.extractLsb' 4 2)] ++
        (match dec (s.srcCell (4 * c.g + 2)), dec (s.srcCell (4 * c.g + 3)) with
        | .sextet v2, .sextet v3 => [.dstWrite (3 * c.g + 1) (v1.extractLsb' 0 4 ++ v2.extractLsb' 2 4),
            .dstWrite (3 * c.g + 2) (v2.extractLsb' 0 2 ++ v3)]
        | .sextet v2, _ => [.dstWrite (3 * c.g + 1) (v1.extractLsb' 0 4 ++ v2.extractLsb' 2 4)]
        | _, _ => []) ∧
      t = { s with mode := t.mode, mem := t.mem, bus := t.bus }

/-- The context is written once, by the accept step, and then changed only in `C_G`, by one (R16, R17, R18). -/
def Obligations.GroupStepsKeepTheContext : Prop :=
  ∀ (s t : State) (c c' : Context), UnitsTurn s → s.mode = .run c → step s = .next t → t.mode = .run c' →
    c' = { c with g := c.g + 1 }

/-- The accesses of a group step (R116, R142): reads in ascending index, then writes in ascending index, each of them inside
the cells of that group (R18). -/
def Obligations.GroupAccessesAscend : Prop :=
  ∀ (s t : State) (c : Context), UnitsTurn s → s.mode = .run c → step s = .next t →
    ∃ reads writes : List Access, t.bus = reads ++ writes ∧
      (reads.filterMap Access.writeIndex = [] ∧ writes.filterMap Access.readIndex = []) ∧
      (reads.filterMap Access.readIndex).Pairwise (· < ·) ∧ (writes.filterMap Access.writeIndex).Pairwise (· < ·) ∧
      (∀ i ∈ reads.filterMap Access.readIndex,
        match c.op with
        | .encode => 3 * c.g ≤ i ∧ i < 3 * c.g + 3
        | .decode => 4 * c.g ≤ i ∧ i < 4 * c.g + 4) ∧
      (∀ j ∈ writes.filterMap Access.writeIndex,
        match c.op with
        | .encode => 4 * c.g ≤ j ∧ j < 4 * c.g + 4
        | .decode => 3 * c.g ≤ j ∧ j < 3 * c.g + 3)

/-! Take, and the host side. -/

/-- The take step (R23, R169): the host gets the response word, the response is discarded, the unit is idle and holds nothing
of the operation; no cell changes. The whole next state is given. -/
def Obligations.TakeStepReturnsTheResponse : Prop :=
  ∀ (s : State) (r : Response), UnitsTurn s → s.mode = .done r → s.take = true → s.spoiled = false →
    step s = .next { s with
      mode := .idle, take := false, loan := none, bus := [], received := s.received ++ [r.word] }

/-- A response never taken (R195, R196; U12): in `DONE`, with the host not ready, the unit stays as it is and accepts
nothing. -/
def Obligations.UntakenResponseStays : Prop :=
  ∀ (s : State) (r : Response), s.agenda = [] → s.mode = .done r → s.take = false →
    step s = .next { s with bus := [] }

/-- A failure leaves nothing behind (R12, R169): two machines that differ only in the pending response are the same after the
take step but for the word the host got and, after a breach, the destination cells lent, which are then `any` (R197, R199)
and need not agree. With no breach they are the same but for the word, and each word is that of its response. -/
def Obligations.TakeForgetsTheResponse : Prop :=
  ∀ (s : State) (r r' : Response), UnitsTurn s → s.mode = .done r → s.take = true →
    ∃ t t' w w', step s = .next t ∧ step { s with mode := .done r' } = .next t' ∧
      t.received = s.received ++ [w] ∧ t'.received = s.received ++ [w'] ∧
      (∀ a, inWindow s.dstBase s.lentDst a = false → t'.cell a = t.cell a) ∧
      t' = { t with mem := t'.mem, received := t'.received, draws := t'.draws } ∧
      (s.spoiled = false → w = r.word ∧ w' = r'.word ∧ t' = { t with received := t'.received })

/-- After reset (R26; decision D15 of the spec): `MODE = IDLE`, so no context and no response, and no command latched. The
rest of the state is the model's choice (assumption 5). -/
def Obligations.ResetStateIsIdle : Prop :=
  State.reset.mode = .idle ∧ State.reset.cmd = none ∧ State.reset.loan = none

/-- `rst` asserted (R190, R191; decision D15): the unit is idle with nothing in flight, the host gets no response, and every
cell outside the destination cells lent to the operation, the ones that are then `any`, reads as before. With nothing in
flight no cell changes. -/
def Obligations.AssertedResetEndsTheOperation : Prop :=
  ∀ (s : State) (rest : List HostAct), s.agenda = .rst true :: rest →
    ∃ t, step s = .next t ∧ t.mode = .idle ∧ t.rst = true ∧ t.loan = none ∧ t.spoiled = false ∧
      t.received = s.received ∧ t.agenda = rest ∧ t.cmd = s.cmd ∧ t.take = s.take ∧ t.bus = [] ∧
      (∀ a, inWindow s.dstBase s.lentDst a = false → t.cell a = s.cell a) ∧
      (s.loan = none → t.mem = s.mem)

/-- While `rst` is asserted the unit makes no step: it accepts nothing and changes nothing. Its release changes nothing but
the line, so the unit is idle still, and it accepts a command as soon as one is offered: the step after the release is
`exec` of the word that is offered (R190, R26). -/
def Obligations.UnitHeldInReset : Prop :=
  (∀ s : State, s.agenda = [] → s.rst = true → step s = .next { s with bus := [] }) ∧
  (∀ (s : State) (rest : List HostAct), s.agenda = .rst false :: rest →
    step s = .next { s with rst := false, agenda := rest, bus := [] }) ∧
  (∀ (s : State) (w : CmdWord), Inv s → s.rst = true → s.agenda = [.rst false] → s.cmd = some w →
    ∃ t, step s = .next t ∧ UnitIdle t ∧ step t = exec (decodeWord w) t)

/-- A write by the host inside a lent buffer spoils the operation in flight (R194, R197); one outside does not, and in
neither case does anything but that cell and the mark change. That a write into one lent destination cell spoils the whole
operation, where R198 and U9 make that cell `any`, is the model's reading of R194 (assumption 10). -/
def Obligations.HostWriteSpoilsOnlyLentBuffers : Prop :=
  ∀ (s : State) (a : Nat) (v : Byte) (rest : List HostAct), s.agenda = .poke a v :: rest →
    ∃ t, step s = .next t ∧
      t.spoiled = (s.spoiled || inWindow s.srcBase s.lentSrc a || inWindow s.dstBase s.lentDst a) ∧
      t.cell a = v ∧ (∀ x, x ≠ a → t.cell x = s.cell x) ∧
      t = { s with mem := t.mem, spoiled := t.spoiled, agenda := rest, bus := [] }

/-- A read by the host sees the byte of any cell that is not a lent destination cell; of a lent one it sees some byte (R198).
It disturbs nothing: that even a read of a lent destination cell leaves the operation unspoiled, though it breaks `DstOwned`
of R194, is the model's reading (assumption 11). -/
def Obligations.HostReadDisturbsNothing : Prop :=
  ∀ (s : State) (a : Nat) (rest : List HostAct), s.agenda = .peek a :: rest →
    ∃ t v, step s = .next t ∧ t.observed = s.observed ++ [v] ∧
      (inWindow s.dstBase s.lentDst a = false → v = s.cell a) ∧
      t = { s with observed := t.observed, draws := t.draws, agenda := rest, bus := [] }

/-- Binding the ports to other buffers between operations (R193, R200), or while one without buffers is in flight (R12, R101;
that ENCLEN and the reserved code have none is assumption 9), changes the bindings and nothing else. While an operation that
was lent buffers is in flight the spec is silent, and the model spoils the operation, and only the destination cells lent
can change (assumption 7). -/
def Obligations.PortsRebindBetweenOperations : Prop :=
  ∀ (s : State) (src dst : Nat) (rest : List HostAct), s.agenda = .bindPorts src dst :: rest →
    (s.loan = none ∨ s.loan = some ⟨0, 0⟩ →
      step s = .next { s with srcBase := src, dstBase := dst, agenda := rest, bus := [] }) ∧
    (∀ l, s.loan = some l → 0 < l.srcLen ∨ 0 < l.dstCap →
      ∃ t, step s = .next t ∧ t.spoiled = true ∧
        (∀ a, inWindow s.dstBase l.dstCap a = false → t.cell a = s.cell a) ∧
        t = { s with
          srcBase := src, dstBase := dst, spoiled := true, agenda := rest, bus := []
          mem := t.mem, draws := t.draws })

/-- The take step of a spoiled operation (R197, R199; U7, U8): the host gets some response word, the destination cells lent
may hold anything, every other cell reads as before, and nothing of the breach stays: "the next operation is unaffected". -/
def Obligations.SpoiledOperationEndsSoundly : Prop :=
  ∀ (s : State) (r : Response), UnitsTurn s → s.mode = .done r → s.take = true → s.spoiled = true →
    ∃ t w, step s = .next t ∧ t.mode = .idle ∧ t.spoiled = false ∧ t.loan = none ∧ t.received = s.received ++ [w] ∧
      (∀ a, inWindow s.dstBase s.lentDst a = false → t.cell a = s.cell a) ∧
      t = { s with
        mode := .idle, take := false, loan := none, spoiled := false, bus := []
        mem := t.mem, received := t.received, draws := t.draws }

/-! Invariants. -/

/-- The reset state satisfies both invariants. -/
def Obligations.ResetSatisfiesTheInvariants : Prop := Inv State.reset ∧ PadCountHolds State.reset

/-- Every step keeps the invariant: canonical memory, widths of table T-CTX, a group left in `RUN`, checked capacity, legal
responses (R160, R161), buffers lent exactly while an operation is in flight, an operation without buffers never spoiled
(R12, R101), `rst` holding the unit idle. -/
def Obligations.StepKeepsTheInvariant : Prop :=
  ∀ s t : State, Inv s → step s = .next t → Inv t

/-- Every step keeps `C_P` equal to the pad count of the source as it stands, unless the operation is spoiled (R17, R42). -/
def Obligations.StepKeepsThePadCount : Prop :=
  ∀ s t : State, Inv s → PadCountHolds s → step s = .next t → PadCountHolds t

/-- The unit cannot hang or fault (R201, R43): from every state that satisfies the invariant the step is a next state. -/
def Obligations.StepAlwaysGoesOn : Prop :=
  ∀ s : State, Inv s → ∃ t, step s = .next t

/-- Progress (R201): left alone, an operation in flight reaches `DONE` in at most as many group steps as groups are left. -/
def Obligations.RunningOperationReachesDone : Prop :=
  ∀ (s : State) (c : Context), Inv s → UnitsTurn s → s.mode = .run c →
    ∃ k t r, k ≤ c.groups - c.g ∧ runSteps k s = .next t ∧ t.mode = .done r

/-- No step of the unit changes a cell outside the destination cells lent to it (R42, R43, R54): the source, when it is
disjoint, and everything else of the host's memory read as before. -/
def Obligations.UnitWritesOnlyLentDestination : Prop :=
  ∀ s t : State, Inv s → s.agenda = [] → step s = .next t →
    ∀ a, inWindow s.dstBase s.lentDst a = false → t.cell a = s.cell a

/-- Every access of a step is inside the buffers lent (R43): source indices below `src_len`, destination indices below
`dst_cap`; so it is also for an operation whose source changed under it. -/
def Obligations.AccessesStayInsideTheBuffers : Prop :=
  ∀ s t : State, Inv s → s.agenda = [] → step s = .next t →
    ∀ x ∈ t.bus, x.inside t.lentSrc t.lentDst = true

/-- Which operation can end with which status (R162): by the accept step of each command, and by the group steps of each
operation in flight. -/
def Obligations.OperationsEndWithTheirStatuses : Prop :=
  (∀ (i : Instr) (s t : State) (r : Response), UnitIdle s → exec i s = .next t → t.mode = .done r →
    match i with
    | .enclen _ _ => r.status = .ok
    | .encode _ _ => r.status = .ok ∨ r = ⟨.precondition, 2⟩
    | .decode _ _ => r.status = .ok ∨ r = ⟨.precondition, 1⟩ ∨ r = ⟨.precondition, 2⟩
    | .reserved3 _ _ => r.status = .illegalOp) ∧
  (∀ (s t : State) (c : Context) (r : Response), UnitsTurn s → s.mode = .run c → step s = .next t → t.mode = .done r →
    match c.op with
    | .encode => r.status = .ok
    | .decode => r.status = .ok ∨ r.status = .invalidChar)

/-- A host that keeps `LenOk`, `CapOk` and `OpOk` never sees `PRECONDITION` or `ILLEGAL_OP` (R194). -/
def Obligations.CleanCommandsGiveNoHostBugResponse : Prop :=
  (∀ (i : Instr) (s t : State) (r : Response), UnitIdle s → lenOk i = true → capOk i (s.source i.srcLen) = true →
    opOk i = true → exec i s = .next t → t.mode = .done r → r.clean = true) ∧
  (∀ (s t : State) (c : Context) (r : Response), UnitsTurn s → s.mode = .run c → step s = .next t → t.mode = .done r →
    r.clean = true)

/-! The functions the source document settles. -/

/-- `enclen(n) = ((n + 2) / 3) * 4`, "the exact number of characters the encoded form of `n` bytes occupies" (R100). -/
def Obligations.EnclenIsTheEncodedLength : Prop :=
  (∀ n, enclen n = (n + 2) / 3 * 4) ∧ ∀ B : List Byte, (codecEncode B).length = enclen B.length

/-- Properties of `enclen` (R102) and that nothing wraps (R4, R103). -/
def Obligations.EnclenProperties : Prop :=
  (∀ n, enclen n % 4 = 0 ∧ n ≤ enclen n ∧ (enclen n = n ↔ n = 0)) ∧ (∀ a b, a ≤ b → enclen a ≤ enclen b) ∧
  (∀ q, enclen (3 * q + 1) = 4 * (q + 1) ∧ enclen (3 * q + 2) = 4 * (q + 1) ∧ enclen (3 * q + 3) = 4 * (q + 1)) ∧
  (∀ n, n < 2 ^ Config.lenW → enclen n < 2 ^ Config.valW)

/-- The two length functions fit together (R105). -/
def Obligations.LengthFunctionsFit : Prop :=
  ∀ n, declen (enclen n) ((3 - n % 3) % 3) = n

/-- The pad count looks at the last two cells only (R131): 2, 1 or 0; 0 for the empty input; never more than 2. -/
def Obligations.PadCountReadsTheLastTwoCells : Prop :=
  codecPadcount [] = 0 ∧ (∀ S, codecPadcount S ≤ 2) ∧
  ∀ (S : List Byte) (c1 c2 : Byte), S.length + 2 ≥ 4 →
    codecPadcount (S ++ [c2, c1]) = if c1 = 0x3D#8 then (if c2 = 0x3D#8 then 2 else 1) else 0

/-- The two tables are inverse on the alphabet (R84), and the alphabet has 64 different characters, none of them the pad. -/
def Obligations.TablesAreInverse : Prop :=
  (∀ v : Sextet, dec (alpha v) = .sextet v) ∧ (∀ v w : Sextet, alpha v = alpha w → v = w) ∧
    ∀ v : Sextet, alpha v ≠ 0x3D#8

/-- The alphabet (R76, table T-ALPHA) and the classification of characters (R81): `A-Z`, `a-z`, `0-9`, `+`, `/` in that
order; a sextet exactly for these 64 characters, `PAD` exactly for 0x3D, `INV` for the codes below 0x2B and above 0x7A, the
entry of table T-DEC in between; `INV` for 191 of the 256 codes in all. The order of the alphabet and the codes of the
characters are marked by the spec as general knowledge (assumption 21). -/
def Obligations.DecodeTableClassifies : Prop :=
  (∀ v : Sextet, (alpha v).toNat =
    if v.toNat < 26 then 0x41 + v.toNat
    else if v.toNat < 52 then 0x61 + (v.toNat - 26)
    else if v.toNat < 62 then 0x30 + (v.toNat - 52)
    else if v.toNat = 62 then 0x2B
    else 0x2F) ∧
  (∀ (c : Byte) (v : Sextet), dec c = .sextet v ↔ c = alpha v) ∧ (∀ c : Byte, dec c = .pad ↔ c = 0x3D#8) ∧
  (∀ c : Byte, c.toNat < 0x2B ∨ 0x7A < c.toNat → dec c = .inv) ∧
  (∀ c : Byte, 0x2B ≤ c.toNat → c.toNat ≤ 0x7A → some (dec c) = decTable[c.toNat - 0x2B]?) ∧
  ((List.range 256).filter fun k => decide (dec (BitVec.ofNat 8 k) = .inv)).length = 191

/-- The encoder's group format and the decoder's are inverse (R79, R83): three bytes come back from the four sextets, and the
four sextets from the three bytes. -/
def Obligations.GroupFormatsAreInverse : Prop :=
  (∀ b0 b1 b2 : Byte,
    let w := group24 b0 b1 b2
    byte0 (w.extractLsb' 18 6) (w.extractLsb' 12 6) = b0 ∧ byte1 (w.extractLsb' 12 6) (w.extractLsb' 6 6) = b1 ∧
      byte2 (w.extractLsb' 6 6) (w.extractLsb' 0 6) = b2) ∧
  (∀ f0 f1 f2 f3 : Sextet,
    let w := group24 (byte0 f0 f1) (byte1 f1 f2) (byte2 f2 f3)
    w.extractLsb' 18 6 = f0 ∧ w.extractLsb' 12 6 = f1 ∧ w.extractLsb' 6 6 = f2 ∧ w.extractLsb' 0 6 = f3)

/-- Padding correctness (R117): the output holds a pad exactly in its last `(3 - n % 3) % 3` places. -/
def Obligations.EncodingPadsOnlyTheTail : Prop :=
  ∀ (B : List Byte) (j : Nat), j < (codecEncode B).length →
    ((codecEncode B).getD j 0#8 = 0x3D#8 ↔ (codecEncode B).length ≤ j + (3 - B.length % 3) % 3)

/-- Every character the encoder writes is one of the alphabet or the pad (R118). -/
def Obligations.EncodingStaysInTheAlphabet : Prop :=
  ∀ (B : List Byte), ∀ y ∈ codecEncode B, y = 0x3D#8 ∨ ∃ v : Sextet, y = alpha v

/-- Round trip (R118, R146): "for all byte buffers `B`, `decode(encode(B)) == B`". -/
def Obligations.DecodeInvertsEncode : Prop :=
  ∀ B : List Byte, codecDecode (codecEncode B) = .ok B

/-- The decoded length (R130, R146): a successful decoding of `m` characters, a multiple of 4, has `m / 4 * 3 - p` bytes. -/
def Obligations.DecodedLengthIsDeclen : Prop :=
  ∀ (S B : List Byte), S.length % 4 = 0 → codecDecode S = .ok B → B.length = declen S.length (codecPadcount S)

/-- The decoder's other inverse (R139, R146): encoding what was decoded gives the input back exactly when the dropped bits are
zero. -/
def Obligations.ReencodingIsExactOnCanonicalInput : Prop :=
  ∀ (S B : List Byte), S.length % 4 = 0 → codecDecode S = .ok B → (codecEncode B = S ↔ droppedBitsZero S = true)

/-- The index `decode` reports (R130, R137): a bad index with no bad index before it. -/
def Obligations.DecodeReportsTheLeastBadIndex : Prop :=
  ∀ (S : List Byte) (k : Nat), codecDecode S = .error k ↔
    k < S.length ∧ codecBad S k = true ∧ ∀ j < k, codecBad S j = false

/-! Whole operations (R24): from the offer of the command, left alone, to the response taken. -/

/-- ENCLEN and the reserved code: two steps (10_state.md section 4), the transaction of R24, no cell changed. And whatever
the host does before it takes their response, short of `rst` (R191): an operation lent no cell, as these are (assumption 9),
keeps its response until the host takes it, and the host gets it as it is (R12, R101). -/
def Obligations.AccesslessOperationsRunToTheirTransaction : Prop :=
  (∀ (s : State) (i : Instr), i.wf = true → Launched i s →
    (∃ cap n, i = .enclen cap n ∨ i = .reserved3 cap n) →
    runSteps 2 s = .next (transact i s) ∧ (transact i s).mem = s.mem) ∧
  (∀ (s t : State) (r : Response), Inv s → s.mode = .done r → s.loan = some ⟨0, 0⟩ →
    (∀ rest, s.agenda ≠ .rst true :: rest) → step s = .next t →
    (t.mode = .done r ∧ t.loan = some ⟨0, 0⟩ ∧ t.spoiled = false ∧ t.received = s.received) ∨
    (t.mode = .idle ∧ t.received = s.received ++ [r.word]))

/-- ENCODE (R24): with disjoint buffers, accept, group steps and take come to the one transition `transact`, in
`2 + (n + 2) / 3` steps (two when the capacity is too small or the input is empty). -/
def Obligations.EncodeRunsToItsTransaction : Prop :=
  ∀ (s : State) (cap n : Nat), (Instr.encode cap n).wf = true → Launched (.encode cap n) s →
    s.overlaps n cap = false →
    runSteps (unitSteps (.encode cap n) (s.source n)) s = .next (transact (.encode cap n) s)

/-- DECODE (R24): with disjoint buffers, accept, group steps and take come to the one transition `transact`, in the number of
steps of 10_state.md section 4, whether the input is decoded, has a bad character, or fails a check. -/
def Obligations.DecodeRunsToItsTransaction : Prop :=
  ∀ (s : State) (cap m : Nat), (Instr.decode cap m).wf = true → Launched (.decode cap m) s →
    s.overlaps m cap = false →
    runSteps (unitSteps (.decode cap m) (s.source m)) s = .next (transact (.decode cap m) s)

/-- What a whole ENCODE leaves (R54, R110, R119): `(OK, 0)`, the destination from 0 to `enclen(n) - 1` the encoding of the
source, every other cell as before, the unit idle. -/
def Obligations.EncodeLeavesTheEncoding : Prop :=
  ∀ (s : State) (cap n : Nat), (Instr.encode cap n).wf = true → Launched (.encode cap n) s →
    s.overlaps n cap = false → enclen n ≤ cap →
    ∃ t, runSteps (2 + (n + 2) / 3) s = .next t ∧ t.mode = .idle ∧
      t.received = s.received ++ [Response.word ⟨.ok, 0⟩] ∧
      (∀ j < enclen n, t.dstCell j = (codecEncode (s.source n)).getD j 0#8) ∧
      (∀ a, inWindow s.dstBase (enclen n) a = false → t.cell a = s.cell a)

/-- What a whole DECODE leaves when the input is good (R54, R130, R143): `(OK, declen)`, the destination from 0 to
`declen - 1` the decoded bytes, every other cell as before, the unit idle. -/
def Obligations.DecodeLeavesTheBytes : Prop :=
  ∀ (s : State) (cap m : Nat) (B : List Byte), (Instr.decode cap m).wf = true → Launched (.decode cap m) s →
    s.overlaps m cap = false → m % 4 = 0 → codecDecode (s.source m) = .ok B → B.length ≤ cap →
    ∃ t, runSteps (2 + m / 4) s = .next t ∧ t.mode = .idle ∧
      t.received = s.received ++ [Response.word ⟨.ok, B.length⟩] ∧
      (∀ j < B.length, t.dstCell j = B.getD j 0#8) ∧
      (∀ a, inWindow s.dstBase B.length a = false → t.cell a = s.cell a)

/-- What a whole DECODE leaves at a bad character (R54, R137, R141): `(INVALID_CHAR, k)` for the least bad index `k`, the
bytes of the groups before it, and outside `DST[3 * (k / 4)..dst_cap-1]` every other cell as before. -/
def Obligations.FailedDecodeKeepsEarlierGroups : Prop :=
  ∀ (s : State) (cap m k : Nat), (Instr.decode cap m).wf = true → Launched (.decode cap m) s →
    s.overlaps m cap = false → m % 4 = 0 → codecDecode (s.source m) = .error k →
    declen m (codecPadcount (s.source m)) ≤ cap →
    ∃ t, runSteps (2 + k / 4 + 1) s = .next t ∧ t.mode = .idle ∧
      t.received = s.received ++ [Response.word ⟨.invalidChar, k⟩] ∧
      (∀ j < 3 * (k / 4), t.dstCell j = (bytesOfGroups ((s.source m).take (4 * (k / 4)))).getD j 0#8) ∧
      (∀ a, inWindow s.dstBase cap a = false → t.cell a = s.cell a)

/-- The response and every byte written are a function of the command and the source (R12, R42): two launched machines whose
sources agree get the same response word and write the same bytes, whatever else their memories and histories hold. -/
def Obligations.ResponseDependsOnlyOnCommandAndSource : Prop :=
  ∀ (s s' : State) (i : Instr), i.wf = true → Launched i s → Launched i s' → disjointOk i s = true →
    disjointOk i s' = true → s.source i.srcLen = s'.source i.srcLen →
    ∃ k t t' w, runSteps k s = .next t ∧ runSteps k s' = .next t' ∧ t.mode = .idle ∧ t'.mode = .idle ∧
      t.received = s.received ++ [w] ∧ t'.received = s'.received ++ [w] ∧
      ∀ j < (resultOf i (s.source i.srcLen)).cells.length, t.dstCell j = t'.dstCell j

/-- No operation changes its source (R42): while it is carried out, and after, every source cell reads as before. -/
def Obligations.SourceIsUnchangedThroughout : Prop :=
  ∀ (s t : State) (i : Instr) (k : Nat), i.wf = true → Launched i s → disjointOk i s = true → Inv s →
    runSteps k s = .next t → ∀ j < i.srcLen, t.srcCell j = s.srcCell j
end

