-- ==== Sys2Proof/Laws/Decode.lean ====
section
/-! SUPPORT. The fields of a command word, read back from the word of a command. -/

namespace Sys2Proof

theorem op_encodeWord (i : Instr) : CmdWord.op (encodeWord i) = i.opcode := by
  apply BitVec.eq_of_toNat_eq
  have h1 : (BitVec.ofNat 32 i.dstCap).toNat < 2 ^ 32 := BitVec.isLt _
  have h2 : (BitVec.ofNat 32 i.srcLen).toNat < 2 ^ 32 := BitVec.isLt _
  simp only [CmdWord.op, encodeWord, BitVec.extractLsb'_toNat, BitVec.toNat_append]
  simp only [← Nat.shiftLeft_add_eq_or_of_lt h2, Nat.shiftRight_eq_div_pow]
  rw [← Nat.shiftLeft_add_eq_or_of_lt (by simp only [Nat.shiftLeft_eq]; omega)]
  have h3 : i.opcode.toNat < 2 ^ 2 := BitVec.isLt _
  simp only [Nat.shiftLeft_eq]
  omega

theorem dstCap_encodeWord {i : Instr} (h : i.dstCap < 2 ^ 32) : CmdWord.dstCap (encodeWord i) = i.dstCap := by
  have h2 : (BitVec.ofNat 32 i.srcLen).toNat < 2 ^ 32 := BitVec.isLt _
  have h1 : (BitVec.ofNat 32 i.dstCap).toNat = i.dstCap := by rw [BitVec.toNat_ofNat, Nat.mod_eq_of_lt h]
  simp only [CmdWord.dstCap, encodeWord, BitVec.extractLsb'_toNat, BitVec.toNat_append]
  simp only [← Nat.shiftLeft_add_eq_or_of_lt h2, Nat.shiftRight_eq_div_pow, h1]
  rw [← Nat.shiftLeft_add_eq_or_of_lt (by simp only [Nat.shiftLeft_eq]; omega)]
  simp only [Nat.shiftLeft_eq]
  omega

theorem srcLen_encodeWord {i : Instr} (h : i.srcLen < 2 ^ 32) : CmdWord.srcLen (encodeWord i) = i.srcLen := by
  have h2 : (BitVec.ofNat 32 i.srcLen).toNat = i.srcLen := by rw [BitVec.toNat_ofNat, Nat.mod_eq_of_lt h]
  have h1 : (BitVec.ofNat 32 i.dstCap).toNat < 2 ^ 32 := BitVec.isLt _
  simp only [CmdWord.srcLen, encodeWord, BitVec.extractLsb'_toNat, BitVec.toNat_append]
  have h3 : (BitVec.ofNat 32 i.srcLen).toNat < 2 ^ 32 := BitVec.isLt _
  simp only [← Nat.shiftLeft_add_eq_or_of_lt h3, Nat.shiftRight_eq_div_pow]
  rw [← Nat.shiftLeft_add_eq_or_of_lt (by simp only [Nat.shiftLeft_eq]; omega), h2]
  simp only [Nat.shiftLeft_eq]
  omega

theorem CmdWord.dstCap_lt (w : CmdWord) : CmdWord.dstCap w < 2 ^ 32 := BitVec.isLt _

theorem CmdWord.srcLen_lt (w : CmdWord) : CmdWord.srcLen w < 2 ^ 32 := BitVec.isLt _

end Sys2Proof
end

