-- ==== Sys2Proof/Laws/Layout.lean ====
section
/-! SUPPORT. The group formats in bit terms (R79, R83): every symbol of the 24-bit group is a slice of the bytes, and every
byte formula of the decoder is a concatenation of slices of the fields. -/

namespace Sys2Proof.Machine

/-- The bits of the 24-bit group (R45, R79). -/
theorem getLsbD_group24 (b0 b1 b2 : Byte) (i : Nat) :
    (group24 b0 b1 b2).getLsbD i =
      if i < 8 then b2.getLsbD i else if i < 16 then b1.getLsbD (i - 8) else b0.getLsbD (i - 16) := by
  show (b0 ++ (b1 ++ b2) : BitVec (8 + (8 + 8))).getLsbD i = _
  rw [BitVec.getLsbD_append, BitVec.getLsbD_append]
  split
  · split <;> simp_all
  · rw [if_neg (by omega)]

theorem sextet0_group24 (b0 b1 b2 : Byte) :
    (group24 b0 b1 b2).extractLsb' 18 6 = b0.extractLsb' 2 6 := by
  apply BitVec.eq_of_getLsbD_eq
  intro i hi
  simp only [BitVec.getLsbD_extractLsb', getLsbD_group24]
  interval_cases i <;> simp

theorem sextet1_group24 (b0 b1 b2 : Byte) :
    (group24 b0 b1 b2).extractLsb' 12 6 = b0.extractLsb' 0 2 ++ b1.extractLsb' 4 4 := by
  apply BitVec.eq_of_getLsbD_eq
  intro i hi
  simp only [BitVec.getLsbD_append, BitVec.getLsbD_extractLsb', getLsbD_group24]
  interval_cases i <;> simp

theorem sextet2_group24 (b0 b1 b2 : Byte) :
    (group24 b0 b1 b2).extractLsb' 6 6 = b1.extractLsb' 0 4 ++ b2.extractLsb' 6 2 := by
  apply BitVec.eq_of_getLsbD_eq
  intro i hi
  simp only [BitVec.getLsbD_append, BitVec.getLsbD_extractLsb', getLsbD_group24]
  interval_cases i <;> simp

theorem sextet3_group24 (b0 b1 b2 : Byte) :
    (group24 b0 b1 b2).extractLsb' 0 6 = b2.extractLsb' 0 6 := by
  apply BitVec.eq_of_getLsbD_eq
  intro i hi
  simp only [BitVec.getLsbD_extractLsb', getLsbD_group24]
  interval_cases i <;> simp

/-- `byte0 = {f0[5:0], f1[5:4]}` (R83). -/
theorem byte0_eq (f0 f1 : Sextet) : byte0 f0 f1 = f0 ++ f1.extractLsb' 4 2 := by
  apply BitVec.eq_of_getLsbD_eq
  intro i hi
  rw [BitVec.getLsbD_append]
  interval_cases i <;> simp [byte0]

/-- `byte1 = {f1[3:0], f2[5:2]}` (R83). -/
theorem byte1_eq (f1 f2 : Sextet) : byte1 f1 f2 = f1.extractLsb' 0 4 ++ f2.extractLsb' 2 4 := by
  apply BitVec.eq_of_getLsbD_eq
  intro i hi
  rw [BitVec.getLsbD_append]
  interval_cases i <;> simp [byte1]

/-- `byte2 = {f2[1:0], f3[5:0]}` (R83). -/
theorem byte2_eq (f2 f3 : Sextet) : byte2 f2 f3 = f2.extractLsb' 0 2 ++ f3 := by
  apply BitVec.eq_of_getLsbD_eq
  intro i hi
  rw [BitVec.getLsbD_append]
  interval_cases i <;> simp [byte2]

/-- The four characters of a complete group, by the bit slices of its bytes (R79, R112). -/
theorem fullSymbols_eq (b0 b1 b2 : Byte) :
    fullSymbols b0 b1 b2 = [alpha (b0.extractLsb' 2 6), alpha (b0.extractLsb' 0 2 ++ b1.extractLsb' 4 4),
      alpha (b1.extractLsb' 0 4 ++ b2.extractLsb' 6 2), alpha (b2.extractLsb' 0 6)] := by
  simp only [fullSymbols, symbol0, symbol1, symbol2, symbol3, sextet0_group24, sextet1_group24, sextet2_group24,
    sextet3_group24]

theorem alphaTable_length : alphaTable.length = 64 := by decide

theorem decTable_length : decTable.length = 80 := by decide

end Sys2Proof.Machine
end

