-- ==== Sys2Proof/Laws/Memory.lean ====
section
/-! SUPPORT. The laws of memory: what is read after a write, and that every operation keeps the canonical form. -/

namespace Sys2Proof.Machine

/-! Reading after writing. -/

theorem Memory.read_write_same (m : Memory) (a : Nat) (b : Byte) : Memory.read (Memory.write m a b) a = some b := by
  induction m with
  | nil => simp [Memory.write, Memory.read]
  | cons p m ih =>
    obtain ⟨k, v⟩ := p
    unfold Memory.write
    split
    · simp [Memory.read]
    · split
      · simp [Memory.read]
      · simp [Memory.read, *]

theorem Memory.read_write_other (m : Memory) {a x : Nat} (b : Byte) (h : x ≠ a) :
    Memory.read (Memory.write m a b) x = Memory.read m x := by
  induction m with
  | nil => simp [Memory.write, Memory.read, h]
  | cons p m ih =>
    obtain ⟨k, v⟩ := p
    unfold Memory.write
    split
    · simp [Memory.read, h]
    · split
      · subst_vars; simp [Memory.read, h]
      · simp only [Memory.read, ih]

theorem Memory.read_write (m : Memory) (a x : Nat) (b : Byte) :
    Memory.read (Memory.write m a b) x = if x = a then some b else Memory.read m x := by
  by_cases h : x = a
  · subst h; simp [Memory.read_write_same]
  · simp [h, Memory.read_write_other]

theorem Memory.read_writeAll_outside (bs : List Byte) (m : Memory) {base x : Nat} (h : x < base ∨ base + bs.length ≤ x) :
    Memory.read (Memory.writeAll m base bs) x = Memory.read m x := by
  induction bs generalizing m base with
  | nil => rfl
  | cons b bs ih =>
    simp only [List.length_cons] at h
    rw [Memory.writeAll, ih _ (by omega), Memory.read_write_other _ _ (by omega)]

theorem Memory.read_writeAll_inside (bs : List Byte) (m : Memory) (base k : Nat) (h : k < bs.length) :
    Memory.read (Memory.writeAll m base bs) (base + k) = some bs[k] := by
  induction bs generalizing m base k with
  | nil => simp at h
  | cons b bs ih =>
    cases k with
    | zero => rw [Memory.writeAll, Memory.read_writeAll_outside _ _ (by omega)]; simp [Memory.read_write_same]
    | succ k =>
      have hk : k < bs.length := by simpa using h
      have := ih (Memory.write m base b) (base + 1) k hk
      rw [Memory.writeAll, show base + (k + 1) = base + 1 + k by omega, this]; simp

theorem Memory.writeAll_append (bs cs : List Byte) (m : Memory) (base : Nat) :
    Memory.writeAll m base (bs ++ cs) = Memory.writeAll (Memory.writeAll m base bs) (base + bs.length) cs := by
  induction bs generalizing m base with
  | nil => rfl
  | cons b bs ih => simp [Memory.writeAll, ih, Nat.add_assoc, Nat.add_comm 1]

/-! The canonical form. -/

theorem Memory.mem_write {m : Memory} {a : Nat} {b : Byte} {p : Host.Cell} (h : p ∈ Memory.write m a b) :
    p = (a, b) ∨ p ∈ m := by
  induction m with
  | nil => simpa [Memory.write] using h
  | cons q m ih =>
    obtain ⟨k, v⟩ := q
    unfold Memory.write at h
    split at h
    · simpa using h
    · split at h
      · rcases List.mem_cons.1 h with h | h <;> simp [h]
      · rcases List.mem_cons.1 h with h | h
        · simp [h]
        · rcases ih h with h | h <;> simp [h]

theorem Memory.wf_write {m : Memory} (h : Memory.wf m) (a : Nat) (b : Byte) : Memory.wf (Memory.write m a b) := by
  induction m with
  | nil => simp [Memory.write]
  | cons q m ih =>
    obtain ⟨k, v⟩ := q
    obtain ⟨hk, hm⟩ := List.pairwise_cons.1 h
    unfold Memory.write
    split
    · rename_i hlt
      refine List.pairwise_cons.2 ⟨fun p hp => ?_, h⟩
      rcases List.mem_cons.1 hp with rfl | hp
      · exact hlt
      · exact Nat.lt_trans hlt (hk p hp)
    · split
      · subst_vars; exact List.pairwise_cons.2 ⟨hk, hm⟩
      · refine List.pairwise_cons.2 ⟨fun p hp => ?_, ih hm⟩
        rcases Memory.mem_write hp with rfl | hp
        · show k < a; omega
        · exact hk p hp

theorem Memory.wf_writeAll (bs : List Byte) {m : Memory} (h : Memory.wf m) (base : Nat) :
    Memory.wf (Memory.writeAll m base bs) := by
  induction bs generalizing m base with
  | nil => exact h
  | cons b bs ih => exact ih (Memory.wf_write h base b) (base + 1)

@[simp] theorem freeBytes_length (d n : Nat) : (freeBytes d n).length = n := by simp [freeBytes]

theorem freeBytes_zero (d : Nat) : freeBytes d 0 = [] := rfl

end Sys2Proof.Machine
end

