-- ==== Sys2Proof/Laws/State.lean ====
section
/-! SUPPORT. One lemma per field per update: what each shared operation does to each field of State, true by unfolding. -/

namespace Sys2Proof.Machine

variable (s : State)

/-! `State.quiet` -/

@[simp] theorem State.quiet_mode : (s.quiet).mode = s.mode := rfl
@[simp] theorem State.quiet_mem : (s.quiet).mem = s.mem := rfl
@[simp] theorem State.quiet_srcBase : (s.quiet).srcBase = s.srcBase := rfl
@[simp] theorem State.quiet_dstBase : (s.quiet).dstBase = s.dstBase := rfl
@[simp] theorem State.quiet_rst : (s.quiet).rst = s.rst := rfl
@[simp] theorem State.quiet_cmd : (s.quiet).cmd = s.cmd := rfl
@[simp] theorem State.quiet_take : (s.quiet).take = s.take := rfl
@[simp] theorem State.quiet_loan : (s.quiet).loan = s.loan := rfl
@[simp] theorem State.quiet_spoiled : (s.quiet).spoiled = s.spoiled := rfl
@[simp] theorem State.quiet_agenda : (s.quiet).agenda = s.agenda := rfl
@[simp] theorem State.quiet_received : (s.quiet).received = s.received := rfl
@[simp] theorem State.quiet_observed : (s.quiet).observed = s.observed := rfl
@[simp] theorem State.quiet_bus : (s.quiet).bus = [] := rfl
@[simp] theorem State.quiet_draws : (s.quiet).draws = s.draws := rfl

/-! `State.noteRead` -/

@[simp] theorem State.noteRead_mode (i : Nat) : (s.noteRead i).mode = s.mode := rfl
@[simp] theorem State.noteRead_mem (i : Nat) : (s.noteRead i).mem = s.mem := rfl
@[simp] theorem State.noteRead_srcBase (i : Nat) : (s.noteRead i).srcBase = s.srcBase := rfl
@[simp] theorem State.noteRead_dstBase (i : Nat) : (s.noteRead i).dstBase = s.dstBase := rfl
@[simp] theorem State.noteRead_rst (i : Nat) : (s.noteRead i).rst = s.rst := rfl
@[simp] theorem State.noteRead_cmd (i : Nat) : (s.noteRead i).cmd = s.cmd := rfl
@[simp] theorem State.noteRead_take (i : Nat) : (s.noteRead i).take = s.take := rfl
@[simp] theorem State.noteRead_loan (i : Nat) : (s.noteRead i).loan = s.loan := rfl
@[simp] theorem State.noteRead_spoiled (i : Nat) : (s.noteRead i).spoiled = s.spoiled := rfl
@[simp] theorem State.noteRead_agenda (i : Nat) : (s.noteRead i).agenda = s.agenda := rfl
@[simp] theorem State.noteRead_received (i : Nat) : (s.noteRead i).received = s.received := rfl
@[simp] theorem State.noteRead_observed (i : Nat) : (s.noteRead i).observed = s.observed := rfl
@[simp] theorem State.noteRead_bus (i : Nat) : (s.noteRead i).bus = s.bus ++ [.srcRead i (s.srcCell i)] := rfl
@[simp] theorem State.noteRead_draws (i : Nat) : (s.noteRead i).draws = s.draws := rfl

/-! `State.writeDst` -/

@[simp] theorem State.writeDst_mode (j : Nat) (v : Byte) : (s.writeDst j v).mode = s.mode := rfl
@[simp] theorem State.writeDst_mem (j : Nat) (v : Byte) : (s.writeDst j v).mem = Memory.write s.mem (s.dstBase + j) v := rfl
@[simp] theorem State.writeDst_srcBase (j : Nat) (v : Byte) : (s.writeDst j v).srcBase = s.srcBase := rfl
@[simp] theorem State.writeDst_dstBase (j : Nat) (v : Byte) : (s.writeDst j v).dstBase = s.dstBase := rfl
@[simp] theorem State.writeDst_rst (j : Nat) (v : Byte) : (s.writeDst j v).rst = s.rst := rfl
@[simp] theorem State.writeDst_cmd (j : Nat) (v : Byte) : (s.writeDst j v).cmd = s.cmd := rfl
@[simp] theorem State.writeDst_take (j : Nat) (v : Byte) : (s.writeDst j v).take = s.take := rfl
@[simp] theorem State.writeDst_loan (j : Nat) (v : Byte) : (s.writeDst j v).loan = s.loan := rfl
@[simp] theorem State.writeDst_spoiled (j : Nat) (v : Byte) : (s.writeDst j v).spoiled = s.spoiled := rfl
@[simp] theorem State.writeDst_agenda (j : Nat) (v : Byte) : (s.writeDst j v).agenda = s.agenda := rfl
@[simp] theorem State.writeDst_received (j : Nat) (v : Byte) : (s.writeDst j v).received = s.received := rfl
@[simp] theorem State.writeDst_observed (j : Nat) (v : Byte) : (s.writeDst j v).observed = s.observed := rfl
@[simp] theorem State.writeDst_bus (j : Nat) (v : Byte) : (s.writeDst j v).bus = s.bus ++ [.dstWrite j v] := rfl
@[simp] theorem State.writeDst_draws (j : Nat) (v : Byte) : (s.writeDst j v).draws = s.draws := rfl

/-! `State.anyDst` -/

@[simp] theorem State.anyDst_mode (lo hi : Nat) : (s.anyDst lo hi).mode = s.mode := rfl
@[simp] theorem State.anyDst_mem (lo hi : Nat) : (s.anyDst lo hi).mem = Memory.writeAll s.mem (s.dstBase + lo) (freeBytes s.draws (hi - lo)) := rfl
@[simp] theorem State.anyDst_srcBase (lo hi : Nat) : (s.anyDst lo hi).srcBase = s.srcBase := rfl
@[simp] theorem State.anyDst_dstBase (lo hi : Nat) : (s.anyDst lo hi).dstBase = s.dstBase := rfl
@[simp] theorem State.anyDst_rst (lo hi : Nat) : (s.anyDst lo hi).rst = s.rst := rfl
@[simp] theorem State.anyDst_cmd (lo hi : Nat) : (s.anyDst lo hi).cmd = s.cmd := rfl
@[simp] theorem State.anyDst_take (lo hi : Nat) : (s.anyDst lo hi).take = s.take := rfl
@[simp] theorem State.anyDst_loan (lo hi : Nat) : (s.anyDst lo hi).loan = s.loan := rfl
@[simp] theorem State.anyDst_spoiled (lo hi : Nat) : (s.anyDst lo hi).spoiled = s.spoiled := rfl
@[simp] theorem State.anyDst_agenda (lo hi : Nat) : (s.anyDst lo hi).agenda = s.agenda := rfl
@[simp] theorem State.anyDst_received (lo hi : Nat) : (s.anyDst lo hi).received = s.received := rfl
@[simp] theorem State.anyDst_observed (lo hi : Nat) : (s.anyDst lo hi).observed = s.observed := rfl
@[simp] theorem State.anyDst_bus (lo hi : Nat) : (s.anyDst lo hi).bus = s.bus := rfl
@[simp] theorem State.anyDst_draws (lo hi : Nat) : (s.anyDst lo hi).draws = s.draws + (hi - lo) := rfl

/-! `State.respond` -/

@[simp] theorem State.respond_mode (v : Nat) : (s.respond v).mode = .done ⟨.ok, v⟩ := rfl
@[simp] theorem State.respond_mem (v : Nat) : (s.respond v).mem = s.mem := rfl
@[simp] theorem State.respond_srcBase (v : Nat) : (s.respond v).srcBase = s.srcBase := rfl
@[simp] theorem State.respond_dstBase (v : Nat) : (s.respond v).dstBase = s.dstBase := rfl
@[simp] theorem State.respond_rst (v : Nat) : (s.respond v).rst = s.rst := rfl
@[simp] theorem State.respond_cmd (v : Nat) : (s.respond v).cmd = s.cmd := rfl
@[simp] theorem State.respond_take (v : Nat) : (s.respond v).take = s.take := rfl
@[simp] theorem State.respond_loan (v : Nat) : (s.respond v).loan = s.loan := rfl
@[simp] theorem State.respond_spoiled (v : Nat) : (s.respond v).spoiled = s.spoiled := rfl
@[simp] theorem State.respond_agenda (v : Nat) : (s.respond v).agenda = s.agenda := rfl
@[simp] theorem State.respond_received (v : Nat) : (s.respond v).received = s.received := rfl
@[simp] theorem State.respond_observed (v : Nat) : (s.respond v).observed = s.observed := rfl
@[simp] theorem State.respond_bus (v : Nat) : (s.respond v).bus = s.bus := rfl
@[simp] theorem State.respond_draws (v : Nat) : (s.respond v).draws = s.draws := rfl

/-! `State.raise` -/

@[simp] theorem State.raise_mode (st : Status) (info : Nat) : (s.raise st info).mode = .done ⟨st, info⟩ := rfl
@[simp] theorem State.raise_mem (st : Status) (info : Nat) : (s.raise st info).mem = s.mem := rfl
@[simp] theorem State.raise_srcBase (st : Status) (info : Nat) : (s.raise st info).srcBase = s.srcBase := rfl
@[simp] theorem State.raise_dstBase (st : Status) (info : Nat) : (s.raise st info).dstBase = s.dstBase := rfl
@[simp] theorem State.raise_rst (st : Status) (info : Nat) : (s.raise st info).rst = s.rst := rfl
@[simp] theorem State.raise_cmd (st : Status) (info : Nat) : (s.raise st info).cmd = s.cmd := rfl
@[simp] theorem State.raise_take (st : Status) (info : Nat) : (s.raise st info).take = s.take := rfl
@[simp] theorem State.raise_loan (st : Status) (info : Nat) : (s.raise st info).loan = s.loan := rfl
@[simp] theorem State.raise_spoiled (st : Status) (info : Nat) : (s.raise st info).spoiled = s.spoiled := rfl
@[simp] theorem State.raise_agenda (st : Status) (info : Nat) : (s.raise st info).agenda = s.agenda := rfl
@[simp] theorem State.raise_received (st : Status) (info : Nat) : (s.raise st info).received = s.received := rfl
@[simp] theorem State.raise_observed (st : Status) (info : Nat) : (s.raise st info).observed = s.observed := rfl
@[simp] theorem State.raise_bus (st : Status) (info : Nat) : (s.raise st info).bus = s.bus := rfl
@[simp] theorem State.raise_draws (st : Status) (info : Nat) : (s.raise st info).draws = s.draws := rfl

/-! `State.assertReset` -/

@[simp] theorem State.assertReset_mode : (s.assertReset).mode = .idle := rfl
@[simp] theorem State.assertReset_mem : (s.assertReset).mem = (s.anyDst 0 s.lentDst).mem := rfl
@[simp] theorem State.assertReset_srcBase : (s.assertReset).srcBase = s.srcBase := rfl
@[simp] theorem State.assertReset_dstBase : (s.assertReset).dstBase = s.dstBase := rfl
@[simp] theorem State.assertReset_rst : (s.assertReset).rst = true := rfl
@[simp] theorem State.assertReset_cmd : (s.assertReset).cmd = s.cmd := rfl
@[simp] theorem State.assertReset_take : (s.assertReset).take = s.take := rfl
@[simp] theorem State.assertReset_loan : (s.assertReset).loan = none := rfl
@[simp] theorem State.assertReset_spoiled : (s.assertReset).spoiled = false := rfl
@[simp] theorem State.assertReset_agenda : (s.assertReset).agenda = s.agenda := rfl
@[simp] theorem State.assertReset_received : (s.assertReset).received = s.received := rfl
@[simp] theorem State.assertReset_observed : (s.assertReset).observed = s.observed := rfl
@[simp] theorem State.assertReset_bus : (s.assertReset).bus = [] := rfl
@[simp] theorem State.assertReset_draws : (s.assertReset).draws = s.draws + (s.lentDst - 0) := rfl

/-! `State.releaseReset` -/

@[simp] theorem State.releaseReset_mode : (s.releaseReset).mode = s.mode := rfl
@[simp] theorem State.releaseReset_mem : (s.releaseReset).mem = s.mem := rfl
@[simp] theorem State.releaseReset_srcBase : (s.releaseReset).srcBase = s.srcBase := rfl
@[simp] theorem State.releaseReset_dstBase : (s.releaseReset).dstBase = s.dstBase := rfl
@[simp] theorem State.releaseReset_rst : (s.releaseReset).rst = false := rfl
@[simp] theorem State.releaseReset_cmd : (s.releaseReset).cmd = s.cmd := rfl
@[simp] theorem State.releaseReset_take : (s.releaseReset).take = s.take := rfl
@[simp] theorem State.releaseReset_loan : (s.releaseReset).loan = s.loan := rfl
@[simp] theorem State.releaseReset_spoiled : (s.releaseReset).spoiled = s.spoiled := rfl
@[simp] theorem State.releaseReset_agenda : (s.releaseReset).agenda = s.agenda := rfl
@[simp] theorem State.releaseReset_received : (s.releaseReset).received = s.received := rfl
@[simp] theorem State.releaseReset_observed : (s.releaseReset).observed = s.observed := rfl
@[simp] theorem State.releaseReset_bus : (s.releaseReset).bus = [] := rfl
@[simp] theorem State.releaseReset_draws : (s.releaseReset).draws = s.draws := rfl

/-! `State.poke` -/

@[simp] theorem State.poke_mode (a : Nat) (v : Byte) : (s.poke a v).mode = s.mode := rfl
@[simp] theorem State.poke_mem (a : Nat) (v : Byte) : (s.poke a v).mem = Memory.write s.mem a v := rfl
@[simp] theorem State.poke_srcBase (a : Nat) (v : Byte) : (s.poke a v).srcBase = s.srcBase := rfl
@[simp] theorem State.poke_dstBase (a : Nat) (v : Byte) : (s.poke a v).dstBase = s.dstBase := rfl
@[simp] theorem State.poke_rst (a : Nat) (v : Byte) : (s.poke a v).rst = s.rst := rfl
@[simp] theorem State.poke_cmd (a : Nat) (v : Byte) : (s.poke a v).cmd = s.cmd := rfl
@[simp] theorem State.poke_take (a : Nat) (v : Byte) : (s.poke a v).take = s.take := rfl
@[simp] theorem State.poke_loan (a : Nat) (v : Byte) : (s.poke a v).loan = s.loan := rfl
@[simp] theorem State.poke_spoiled (a : Nat) (v : Byte) : (s.poke a v).spoiled = (s.spoiled || inWindow s.srcBase s.lentSrc a || inWindow s.dstBase s.lentDst a) := rfl
@[simp] theorem State.poke_agenda (a : Nat) (v : Byte) : (s.poke a v).agenda = s.agenda := rfl
@[simp] theorem State.poke_received (a : Nat) (v : Byte) : (s.poke a v).received = s.received := rfl
@[simp] theorem State.poke_observed (a : Nat) (v : Byte) : (s.poke a v).observed = s.observed := rfl
@[simp] theorem State.poke_bus (a : Nat) (v : Byte) : (s.poke a v).bus = s.bus := rfl
@[simp] theorem State.poke_draws (a : Nat) (v : Byte) : (s.poke a v).draws = s.draws := rfl

/-! `State.bindTo` -/

@[simp] theorem State.bindTo_mode (src dst : Nat) : (s.bindTo src dst).mode = s.mode := rfl
@[simp] theorem State.bindTo_mem (src dst : Nat) : (s.bindTo src dst).mem = (s.anyDst 0 s.lentDst).mem := rfl
@[simp] theorem State.bindTo_srcBase (src dst : Nat) : (s.bindTo src dst).srcBase = src := rfl
@[simp] theorem State.bindTo_dstBase (src dst : Nat) : (s.bindTo src dst).dstBase = dst := rfl
@[simp] theorem State.bindTo_rst (src dst : Nat) : (s.bindTo src dst).rst = s.rst := rfl
@[simp] theorem State.bindTo_cmd (src dst : Nat) : (s.bindTo src dst).cmd = s.cmd := rfl
@[simp] theorem State.bindTo_take (src dst : Nat) : (s.bindTo src dst).take = s.take := rfl
@[simp] theorem State.bindTo_loan (src dst : Nat) : (s.bindTo src dst).loan = s.loan := rfl
@[simp] theorem State.bindTo_spoiled (src dst : Nat) : (s.bindTo src dst).spoiled = (s.spoiled || s.hasBuffers) := rfl
@[simp] theorem State.bindTo_agenda (src dst : Nat) : (s.bindTo src dst).agenda = s.agenda := rfl
@[simp] theorem State.bindTo_received (src dst : Nat) : (s.bindTo src dst).received = s.received := rfl
@[simp] theorem State.bindTo_observed (src dst : Nat) : (s.bindTo src dst).observed = s.observed := rfl
@[simp] theorem State.bindTo_bus (src dst : Nat) : (s.bindTo src dst).bus = s.bus := rfl
@[simp] theorem State.bindTo_draws (src dst : Nat) : (s.bindTo src dst).draws = s.draws + (s.lentDst - 0) := rfl

/-! `State.writeDstAll` -/

@[simp] theorem State.writeDstAll_mode (vs : List Byte) (j : Nat) (s : State) : (s.writeDstAll j vs).mode = s.mode := by
  induction vs generalizing j s with
  | nil => rfl
  | cons v vs ih => simp [State.writeDstAll, ih]
@[simp] theorem State.writeDstAll_mem (vs : List Byte) (j : Nat) (s : State) :
    (s.writeDstAll j vs).mem = Memory.writeAll s.mem (s.dstBase + j) vs := by
  induction vs generalizing j s with
  | nil => rfl
  | cons v vs ih => simp [State.writeDstAll, Memory.writeAll, ih, Nat.add_assoc]
@[simp] theorem State.writeDstAll_srcBase (vs : List Byte) (j : Nat) (s : State) : (s.writeDstAll j vs).srcBase = s.srcBase := by
  induction vs generalizing j s with
  | nil => rfl
  | cons v vs ih => simp [State.writeDstAll, ih]
@[simp] theorem State.writeDstAll_dstBase (vs : List Byte) (j : Nat) (s : State) : (s.writeDstAll j vs).dstBase = s.dstBase := by
  induction vs generalizing j s with
  | nil => rfl
  | cons v vs ih => simp [State.writeDstAll, ih]
@[simp] theorem State.writeDstAll_rst (vs : List Byte) (j : Nat) (s : State) : (s.writeDstAll j vs).rst = s.rst := by
  induction vs generalizing j s with
  | nil => rfl
  | cons v vs ih => simp [State.writeDstAll, ih]
@[simp] theorem State.writeDstAll_cmd (vs : List Byte) (j : Nat) (s : State) : (s.writeDstAll j vs).cmd = s.cmd := by
  induction vs generalizing j s with
  | nil => rfl
  | cons v vs ih => simp [State.writeDstAll, ih]
@[simp] theorem State.writeDstAll_take (vs : List Byte) (j : Nat) (s : State) : (s.writeDstAll j vs).take = s.take := by
  induction vs generalizing j s with
  | nil => rfl
  | cons v vs ih => simp [State.writeDstAll, ih]
@[simp] theorem State.writeDstAll_loan (vs : List Byte) (j : Nat) (s : State) : (s.writeDstAll j vs).loan = s.loan := by
  induction vs generalizing j s with
  | nil => rfl
  | cons v vs ih => simp [State.writeDstAll, ih]
@[simp] theorem State.writeDstAll_spoiled (vs : List Byte) (j : Nat) (s : State) : (s.writeDstAll j vs).spoiled = s.spoiled := by
  induction vs generalizing j s with
  | nil => rfl
  | cons v vs ih => simp [State.writeDstAll, ih]
@[simp] theorem State.writeDstAll_agenda (vs : List Byte) (j : Nat) (s : State) : (s.writeDstAll j vs).agenda = s.agenda := by
  induction vs generalizing j s with
  | nil => rfl
  | cons v vs ih => simp [State.writeDstAll, ih]
@[simp] theorem State.writeDstAll_received (vs : List Byte) (j : Nat) (s : State) : (s.writeDstAll j vs).received = s.received := by
  induction vs generalizing j s with
  | nil => rfl
  | cons v vs ih => simp [State.writeDstAll, ih]
@[simp] theorem State.writeDstAll_observed (vs : List Byte) (j : Nat) (s : State) : (s.writeDstAll j vs).observed = s.observed := by
  induction vs generalizing j s with
  | nil => rfl
  | cons v vs ih => simp [State.writeDstAll, ih]
/-- The writes stand on the bus in ascending index. -/
@[simp] theorem State.writeDstAll_bus (vs : List Byte) (j : Nat) (s : State) :
    (s.writeDstAll j vs).bus = s.bus ++ vs.mapIdx fun k v => .dstWrite (j + k) v := by
  induction vs generalizing j s with
  | nil => simp [State.writeDstAll]
  | cons v vs ih => simp [State.writeDstAll, ih, List.mapIdx_cons, Nat.add_assoc, Nat.add_comm 1]
@[simp] theorem State.writeDstAll_draws (vs : List Byte) (j : Nat) (s : State) : (s.writeDstAll j vs).draws = s.draws := by
  induction vs generalizing j s with
  | nil => rfl
  | cons v vs ih => simp [State.writeDstAll, ih]

/-! The group's end: everything but the mode is kept. -/

theorem State.endGroup_mode (c : Context) (total v : Nat) :
    (s.endGroup c total v).mode = if c.g + 1 = total then .done ⟨.ok, v⟩ else .run { c with g := c.g + 1 } := by
  unfold State.endGroup; split <;> rfl
@[simp] theorem State.endGroup_mem (c : Context) (total v : Nat) : (s.endGroup c total v).mem = s.mem := by
  unfold State.endGroup; split <;> rfl
@[simp] theorem State.endGroup_srcBase (c : Context) (total v : Nat) : (s.endGroup c total v).srcBase = s.srcBase := by
  unfold State.endGroup; split <;> rfl
@[simp] theorem State.endGroup_dstBase (c : Context) (total v : Nat) : (s.endGroup c total v).dstBase = s.dstBase := by
  unfold State.endGroup; split <;> rfl
@[simp] theorem State.endGroup_rst (c : Context) (total v : Nat) : (s.endGroup c total v).rst = s.rst := by
  unfold State.endGroup; split <;> rfl
@[simp] theorem State.endGroup_cmd (c : Context) (total v : Nat) : (s.endGroup c total v).cmd = s.cmd := by
  unfold State.endGroup; split <;> rfl
@[simp] theorem State.endGroup_take (c : Context) (total v : Nat) : (s.endGroup c total v).take = s.take := by
  unfold State.endGroup; split <;> rfl
@[simp] theorem State.endGroup_loan (c : Context) (total v : Nat) : (s.endGroup c total v).loan = s.loan := by
  unfold State.endGroup; split <;> rfl
@[simp] theorem State.endGroup_spoiled (c : Context) (total v : Nat) : (s.endGroup c total v).spoiled = s.spoiled := by
  unfold State.endGroup; split <;> rfl
@[simp] theorem State.endGroup_agenda (c : Context) (total v : Nat) : (s.endGroup c total v).agenda = s.agenda := by
  unfold State.endGroup; split <;> rfl
@[simp] theorem State.endGroup_received (c : Context) (total v : Nat) : (s.endGroup c total v).received = s.received := by
  unfold State.endGroup; split <;> rfl
@[simp] theorem State.endGroup_observed (c : Context) (total v : Nat) : (s.endGroup c total v).observed = s.observed := by
  unfold State.endGroup; split <;> rfl
@[simp] theorem State.endGroup_bus (c : Context) (total v : Nat) : (s.endGroup c total v).bus = s.bus := by
  unfold State.endGroup; split <;> rfl
@[simp] theorem State.endGroup_draws (c : Context) (total v : Nat) : (s.endGroup c total v).draws = s.draws := by
  unfold State.endGroup; split <;> rfl

end Sys2Proof.Machine
end

