-- ==== Sys2Proof/Laws/Ops.lean ====
section
/-! SUPPORT. One lemma per shared operation that says what it can do; later proofs cite these and unfold nothing. -/

namespace Sys2Proof.Machine

/-! Cells. -/

theorem State.cell_congr {s t : State} {a : Nat} (h : Memory.read s.mem a = Memory.read t.mem a) : s.cell a = t.cell a := by
  simp [State.cell, h]

theorem State.cell_writeDst (s : State) (j a : Nat) (v : Byte) :
    (s.writeDst j v).cell a = if a = s.dstBase + j then v else s.cell a := by
  simp only [State.cell, State.writeDst_mem, Memory.read_write]
  split <;> simp

theorem State.cell_writeDstAll_outside (s : State) (j : Nat) (vs : List Byte) {a : Nat}
    (h : a < s.dstBase + j ∨ s.dstBase + j + vs.length ≤ a) : (s.writeDstAll j vs).cell a = s.cell a := by
  simp only [State.cell, State.writeDstAll_mem, Memory.read_writeAll_outside _ _ h]

theorem State.cell_writeDstAll_inside (s : State) (j : Nat) (vs : List Byte) (k : Nat) (h : k < vs.length) :
    (s.writeDstAll j vs).cell (s.dstBase + j + k) = vs[k] := by
  simp [State.cell, Memory.read_writeAll_inside _ _ _ _ h]

theorem State.cell_anyDst_outside (s : State) (lo hi : Nat) {a : Nat}
    (h : a < s.dstBase + lo ∨ s.dstBase + lo + (hi - lo) ≤ a) : (s.anyDst lo hi).cell a = s.cell a := by
  simp only [State.cell, State.anyDst_mem]
  rw [Memory.read_writeAll_outside _ _ (by simpa using h)]

/-! What leaves memory and bindings alone leaves every cell alone. -/

@[simp] theorem State.cell_quiet (s : State) (a : Nat) : s.quiet.cell a = s.cell a := rfl
@[simp] theorem State.cell_noteRead (s : State) (i a : Nat) : (s.noteRead i).cell a = s.cell a := rfl
@[simp] theorem State.cell_respond (s : State) (v a : Nat) : (s.respond v).cell a = s.cell a := rfl
@[simp] theorem State.cell_raise (s : State) (st : Status) (v a : Nat) : (s.raise st v).cell a = s.cell a := rfl
@[simp] theorem State.cell_endGroup (s : State) (c : Context) (total v a : Nat) :
    (s.endGroup c total v).cell a = s.cell a := by simp [State.cell]
@[simp] theorem State.srcCell_quiet (s : State) (i : Nat) : s.quiet.srcCell i = s.srcCell i := rfl
@[simp] theorem State.srcCell_noteRead (s : State) (i j : Nat) : (s.noteRead i).srcCell j = s.srcCell j := rfl
@[simp] theorem fieldAt_quiet (c : Context) (s : State) (i : Nat) : fieldAt c s.quiet i = fieldAt c s i := rfl
@[simp] theorem fieldAt_noteRead (c : Context) (s : State) (i j : Nat) : fieldAt c (s.noteRead i) j = fieldAt c s j := rfl

/-- Only the cells from `lo` up to `hi` can change; with nothing to draw, none does. -/
theorem State.anyDst_empty (s : State) (lo hi : Nat) (h : hi ≤ lo) : s.anyDst lo hi = s := by
  have : hi - lo = 0 := by omega
  simp [State.anyDst, this, freeBytes_zero, Memory.writeAll]

/-- A window holds a cell exactly when the cell is one of its indices. -/
theorem inWindow_iff (base n a : Nat) : inWindow base n a = true ↔ base ≤ a ∧ a < base + n := by simp [inWindow]

/-- The two windows overlap exactly when some source cell is a destination cell (R199). -/
theorem State.overlaps_iff (s : State) (n cap : Nat) :
    s.overlaps n cap = true ↔ ∃ i < n, ∃ j < cap, s.srcBase + i = s.dstBase + j := by
  simp only [State.overlaps, Bool.and_eq_true, decide_eq_true_eq]
  constructor
  · rintro ⟨⟨⟨h1, h2⟩, h3⟩, h4⟩
    by_cases h : s.srcBase ≤ s.dstBase
    · exact ⟨s.dstBase - s.srcBase, by omega, 0, h2, by omega⟩
    · exact ⟨0, h1, s.srcBase - s.dstBase, by omega, by omega⟩
  · rintro ⟨i, hi, j, hj, h⟩
    omega

/-! What is lent, by the loan (T-HOST). -/

@[simp] theorem State.lentDst_none {s : State} (h : s.loan = none) : s.lentDst = 0 := by simp [State.lentDst, h]
@[simp] theorem State.lentSrc_none {s : State} (h : s.loan = none) : s.lentSrc = 0 := by simp [State.lentSrc, h]
@[simp] theorem State.lentDst_some {s : State} {l : Loan} (h : s.loan = some l) : s.lentDst = l.dstCap := by
  simp [State.lentDst, h]
@[simp] theorem State.lentSrc_some {s : State} {l : Loan} (h : s.loan = some l) : s.lentSrc = l.srcLen := by
  simp [State.lentSrc, h]

theorem State.hasBuffers_iff (s : State) : s.hasBuffers = true ↔ 0 < s.lentSrc ∨ 0 < s.lentDst := by
  simp [State.hasBuffers]

/-- What is lent depends on the loan alone. -/
theorem State.hasBuffers_congr {s t : State} (h : t.loan = s.loan) : t.hasBuffers = s.hasBuffers := by
  unfold State.hasBuffers State.lentSrc State.lentDst
  rw [h]

/-- Only an operation with buffers can be accepted with overlapping ones (R199). -/
theorem State.hasBuffers_of_overlaps {s t : State} {l : Loan} (hl : t.loan = some l)
    (h : s.overlaps l.srcLen l.dstCap = true) : t.hasBuffers = true := by
  obtain ⟨i, hi, _⟩ := (State.overlaps_iff s _ _).1 h
  rw [State.hasBuffers_iff, State.lentSrc_some hl]
  exact .inl (by omega)

/-- Only an operation with buffers has a lent cell that the host could touch (R197, R198). -/
theorem State.hasBuffers_of_inWindow {s : State} {b a : Nat}
    (h : inWindow b s.lentSrc a = true ∨ inWindow b s.lentDst a = true) : s.hasBuffers = true := by
  rw [State.hasBuffers_iff]
  rcases h with h | h <;> have := (inWindow_iff _ _ _).1 h <;> omega

/-! Accept and take. -/

theorem State.accept_idle {s : State} (hm : s.mode = .idle) (hr : s.rst = false) (l : Loan) (k : State → State) :
    s.accept l k = k { s with cmd := none, loan := some l, spoiled := s.overlaps l.srcLen l.dstCap, bus := [] } := by
  simp [State.accept, hm, hr]

theorem State.accept_busy {s : State} (h : s.mode ≠ .idle) (l : Loan) (k : State → State) : s.accept l k = s := by
  unfold State.accept
  split
  · contradiction
  · rfl

theorem State.accept_reset {s : State} (h : s.rst = true) (l : Loan) (k : State → State) : s.accept l k = s := by
  unfold State.accept
  split
  · rename_i h2; simp [h] at h2
  · rfl

/-- What the accept frame can do: nothing, or hand the lent state to the rest of the accept step. -/
theorem State.accept_cases (s : State) (l : Loan) (k : State → State) :
    (s.accept l k = s) ∨ (s.mode = .idle ∧ s.rst = false ∧ s.accept l k =
      k { s with cmd := none, loan := some l, spoiled := s.overlaps l.srcLen l.dstCap, bus := [] }) := by
  unfold State.accept
  split
  · rename_i h1 h2; exact .inr ⟨h1, h2, rfl⟩
  · exact .inl rfl

theorem State.settle_unspoiled {s : State} (h : s.spoiled = false) : s.settle = s := by simp [State.settle, h]

theorem State.takeResponse_unspoiled {s : State} (h : s.spoiled = false) (r : Response) :
    s.takeResponse r = { s with
      mode := .idle, take := false, loan := none, spoiled := false, bus := [], received := s.received ++ [r.word] } := by
  simp [State.takeResponse, State.settle, h]

theorem State.takeResponse_spoiled {s : State} (h : s.spoiled = true) (r : Response) :
    s.takeResponse r = { s.anyDst 0 s.lentDst with
      mode := .idle, take := false, loan := none, spoiled := false, bus := []
      received := s.received ++ [Config.freeRspWord (s.draws + s.lentDst)], draws := s.draws + s.lentDst + 1 } := by
  simp [State.takeResponse, State.settle, h, State.anyDst]

/-- The rest of the accept step of DECODE, as one update (R132, steps 3 to 5). -/
theorem acceptDecode_eq (cap m : Nat) (s : State) :
    acceptDecode cap m s = { s with
      mode :=
        if cap < declen m (padcount (s.srcCell (m - 1)) (s.srcCell (m - 2))) then
          .done ⟨.precondition, causeCapacity⟩
        else .run {
          op := .decode, n := m, cap := cap, p := padcount (s.srcCell (m - 1)) (s.srcCell (m - 2)), g := 0 }
      bus := s.bus ++ [.srcRead (m - 1) (s.srcCell (m - 1)), .srcRead (m - 2) (s.srcCell (m - 2))] } := by
  by_cases h : cap < declen m (padcount (s.srcCell (m - 1)) (s.srcCell (m - 2))) <;>
    simp only [acceptDecode, h, if_true, if_false, State.raise, State.noteRead, List.append_assoc, List.singleton_append] <;>
    rfl

/-! The group steps. -/

/-- What a DECODE write may do: one cell below `dst_cap`, or nothing. -/
theorem writeInCap_cases (c : Context) (j : Nat) (v : Byte) (s : State) :
    (j < c.cap ∧ writeInCap c j v s = s.writeDst j v) ∨ (c.cap ≤ j ∧ writeInCap c j v s = s) := by
  unfold writeInCap
  split
  · rename_i h; exact .inl ⟨h, rfl⟩
  · rename_i h; exact .inr ⟨by omega, rfl⟩

/-- What the decode table says of a position decides whether its character is accepted (R134, R136). -/
theorem fieldAt_none_iff (c : Context) (s : State) (i : Nat) :
    fieldAt c s i = none ↔
      dec (s.srcCell (4 * c.g + i)) = .inv ∨ (dec (s.srcCell (4 * c.g + i)) = .pad ∧ padLegal c i = false) := by
  unfold fieldAt
  cases dec (s.srcCell (4 * c.g + i)) <;> cases padLegal c i <;> simp

/-- No pad is legal in positions 0 and 1, since the pad count is at most 2 (R135). -/
theorem padLegal_low (c : Context) {i : Nat} (h : i < 2) : padLegal c i = false := by
  have := c.p.isLt
  simp [padLegal]; omega

end Sys2Proof.Machine
end

