-- ==== Sys2Proof/Laws/Group.lean ====
section
/-! SUPPORT. What a group step can do, said once (R22, R112 to R114, R133 to R138): read the cells of its group, write
consecutive cells of its group, and go on or end; or read up to a bad character and end with `INVALID_CHAR`. -/

namespace Sys2Proof.Machine

/-- The first `k` reads of a group that starts at source index `base`. -/
def State.groupReads (s : State) (base k : Nat) : List Access :=
  (List.range k).map fun j => .srcRead (base + j) (s.srcCell (base + j))

/-- The writes of consecutive destination cells, as they stand on the bus. -/
def writesFrom (j : Nat) (vs : List Byte) : List Access := vs.mapIdx fun k v => .dstWrite (j + k) v

theorem State.writeDstAll_eq (vs : List Byte) (j : Nat) (s : State) :
    s.writeDstAll j vs = { s with mem := Memory.writeAll s.mem (s.dstBase + j) vs, bus := s.bus ++ writesFrom j vs } := by
  induction vs generalizing j s with
  | nil => simp [State.writeDstAll, Memory.writeAll, writesFrom]
  | cons v vs ih =>
    simp [State.writeDstAll, Memory.writeAll, writesFrom, ih, State.writeDst, List.mapIdx_cons, Nat.add_assoc,
      Nat.add_comm 1]

/-- A group's writes and its end, as one update. -/
theorem writeGroup_eq (s : State) (b : List Access) (c : Context) (j total v : Nat) (vs : List Byte) :
    ({ s with bus := b }.writeDstAll j vs).endGroup c total v = { s with
      mode := if c.g + 1 = total then .done ⟨.ok, v⟩ else .run { c with g := c.g + 1 }
      mem := Memory.writeAll s.mem (s.dstBase + j) vs
      bus := b ++ writesFrom j vs } := by
  rw [State.writeDstAll_eq, State.endGroup]
  split <;> rfl

/-! ENCODE. -/

theorem encodeFull_eq (c : Context) (s : State) :
    encodeFull c s.quiet = ({ s with bus := s.groupReads (3 * c.g) 3 }.writeDstAll (4 * c.g)
      (fullSymbols (s.srcCell (3 * c.g)) (s.srcCell (3 * c.g + 1)) (s.srcCell (3 * c.g + 2)))).endGroup
        c (encodeGroups c.n) 0 := rfl

theorem encodeTail1_eq (c : Context) (s : State) :
    encodeTail1 c s.quiet = ({ s with bus := s.groupReads (3 * c.g) 1 }.writeDstAll (4 * c.g)
      (tailSymbols1 (s.srcCell (3 * c.g)))).endGroup c (encodeGroups c.n) 0 := rfl

theorem encodeTail2_eq (c : Context) (s : State) :
    encodeTail2 c s.quiet = ({ s with bus := s.groupReads (3 * c.g) 2 }.writeDstAll (4 * c.g)
      (tailSymbols2 (s.srcCell (3 * c.g)) (s.srcCell (3 * c.g + 1)))).endGroup c (encodeGroups c.n) 0 := rfl

/-- The four characters a group step of ENCODE writes, with the number of source cells they are made of (R18). -/
def encodeSymbols (c : Context) (s : State) : Nat × List Byte :=
  if c.g < c.n / 3 then
    (3, fullSymbols (s.srcCell (3 * c.g)) (s.srcCell (3 * c.g + 1)) (s.srcCell (3 * c.g + 2)))
  else if c.n % 3 = 1 then (1, tailSymbols1 (s.srcCell (3 * c.g)))
  else (2, tailSymbols2 (s.srcCell (3 * c.g)) (s.srcCell (3 * c.g + 1)))

theorem encodeSymbols_length (c : Context) (s : State) : (encodeSymbols c s).2.length = 4 := by
  unfold encodeSymbols
  split
  · rfl
  · split <;> rfl

theorem encodeSymbols_reads (c : Context) (s : State) (h : c.g < encodeGroups c.n) :
    (encodeSymbols c s).1 ≤ 3 ∧ 3 * c.g + (encodeSymbols c s).1 ≤ c.n := by
  unfold encodeGroups at h
  unfold encodeSymbols
  split
  · simp only; omega
  · split <;> simp only <;> omega

/-- A group step of ENCODE on a group the input has (R22), as one update. -/
theorem encodeGroup_next (c : Context) (s : State) (h : c.g < encodeGroups c.n) :
    encodeGroup c s = .next { s with
      mode := if c.g + 1 = encodeGroups c.n then .done ⟨.ok, 0⟩ else .run { c with g := c.g + 1 }
      mem := Memory.writeAll s.mem (s.dstBase + 4 * c.g) (encodeSymbols c s).2
      bus := s.groupReads (3 * c.g) (encodeSymbols c s).1 ++ writesFrom (4 * c.g) (encodeSymbols c s).2 } := by
  rw [← writeGroup_eq]
  unfold encodeGroups at h
  unfold encodeGroup encodeSymbols
  by_cases h1 : c.g < c.n / 3
  · rw [if_pos h1, if_pos h1, encodeFull_eq]
  · rw [if_neg h1, if_neg h1]
    by_cases h2 : c.n % 3 = 1
    · rw [if_pos ⟨by omega, h2⟩, if_pos h2, encodeTail1_eq]
    · rw [if_neg (fun x => h2 x.2), if_pos ⟨by omega, by omega⟩, if_neg h2, encodeTail2_eq]

/-- ENCODE has no group beyond its last (R18). -/
theorem encodeGroup_fault (c : Context) (s : State) (h : encodeGroups c.n ≤ c.g) :
    encodeGroup c s = .fault .noSuchGroup := by
  unfold encodeGroups at h
  unfold encodeGroup
  rw [if_neg (by omega), if_neg (by omega), if_neg (by omega)]

/-! DECODE. -/

theorem invalidAt_eq (c : Context) (s : State) (i : Nat) (bus : List Access) :
    invalidAt c { s with bus := bus } i = { s with
      mode := .done ⟨.invalidChar, 4 * c.g + i⟩
      mem := Memory.writeAll s.mem (s.dstBase + 3 * c.g) (freeBytes s.draws (c.cap - 3 * c.g))
      bus := bus
      draws := s.draws + (c.cap - 3 * c.g) } := rfl

/-- The bytes a group of accepted fields writes (R138); none at or beyond `dst_cap` but the first (R43). -/
def groupBytes (c : Context) (f0 f1 : Sextet) (f2 f3 : Field) : List Byte :=
  match f2, f3 with
  | .data v2, .data v3 =>
    if 3 * c.g + 2 < c.cap then [byte0 f0 f1, byte1 f1 v2, byte2 v2 v3]
    else if 3 * c.g + 1 < c.cap then [byte0 f0 f1, byte1 f1 v2]
    else [byte0 f0 f1]
  | .data v2, .pad => if 3 * c.g + 1 < c.cap then [byte0 f0 f1, byte1 f1 v2] else [byte0 f0 f1]
  | .pad, _ => [byte0 f0 f1]

theorem groupBytes_bounds (c : Context) (f0 f1 : Sextet) (f2 f3 : Field) :
    (groupBytes c f0 f1 f2 f3).length ≤ 3 ∧
      ∀ k, 0 < k → k < (groupBytes c f0 f1 f2 f3).length → 3 * c.g + k < c.cap := by
  unfold groupBytes
  split
  · split
    · refine ⟨by simp, fun k h1 h2 => ?_⟩; simp at h2; omega
    · split
      · refine ⟨by simp, fun k h1 h2 => ?_⟩; simp at h2; omega
      · refine ⟨by simp, fun k h1 h2 => ?_⟩; simp at h2; omega
  · split
    · refine ⟨by simp, fun k h1 h2 => ?_⟩; simp at h2; omega
    · refine ⟨by simp, fun k h1 h2 => ?_⟩; simp at h2; omega
  · refine ⟨by simp, fun k h1 h2 => ?_⟩; simp at h2; omega

theorem decodeBytes3_eq (c : Context) (f0 f1 : Sextet) (f2 f3 : Field) (s : State) :
    decodeBytes3 c f0 f1 f2 f3 s =
      (s.writeDstAll (3 * c.g) (groupBytes c f0 f1 f2 f3)).endGroup c (decodeGroups c.n) (declen c.n c.p) := by
  unfold decodeBytes3 groupBytes writeByte1 writeByte2 writeInCap
  cases f2 <;> cases f3 <;> simp only
  · rename_i v w
    by_cases h2 : 3 * c.g + 2 < c.cap
    · have h1 : 3 * c.g + 1 < c.cap := by omega
      simp [h1, h2, State.writeDstAll, Nat.add_assoc]
    · by_cases h1 : 3 * c.g + 1 < c.cap <;> simp [h1, h2, State.writeDstAll]
  · rename_i v
    by_cases h1 : 3 * c.g + 1 < c.cap <;> simp [h1, State.writeDstAll]
  · simp [State.writeDstAll]
  · simp [State.writeDstAll]

/-- What a group step of DECODE comes to: all four characters accepted, or the first that is not (R133 to R138). -/
inductive GroupOutcome where
  /-- All four are accepted. -/
  | fields (f0 f1 : Sextet) (f2 f3 : Field)
  /-- Position `k` is the first that is not. -/
  | bad (k : Nat)

/-- The outcome of looking the four characters of a group up, in order (R133). -/
def groupOutcome (c : Context) (s : State) : GroupOutcome :=
  match fieldAt c s 0 with
  | some (.data f0) =>
    match fieldAt c s 1 with
    | some (.data f1) =>
      match fieldAt c s 2 with
      | some f2 =>
        match fieldAt c s 3 with
        | some f3 => .fields f0 f1 f2 f3
        | none => .bad 3
      | none => .bad 2
    | _ => .bad 1
  | _ => .bad 0

/-- The state a group step of DECODE ends in, by its outcome. -/
def groupResult (c : Context) (s : State) : GroupOutcome → State
  | .fields f0 f1 f2 f3 => { s with
      mode := if c.g + 1 = decodeGroups c.n then .done ⟨.ok, declen c.n c.p⟩ else .run { c with g := c.g + 1 }
      mem := Memory.writeAll s.mem (s.dstBase + 3 * c.g) (groupBytes c f0 f1 f2 f3)
      bus := s.groupReads (4 * c.g) 4 ++ writesFrom (3 * c.g) (groupBytes c f0 f1 f2 f3) }
  | .bad k => { s with
      mode := .done ⟨.invalidChar, 4 * c.g + k⟩
      mem := Memory.writeAll s.mem (s.dstBase + 3 * c.g) (freeBytes s.draws (c.cap - 3 * c.g))
      bus := s.groupReads (4 * c.g) (k + 1)
      draws := s.draws + (c.cap - 3 * c.g) }

theorem quiet_noteRead (s : State) (i : Nat) : s.quiet.noteRead i = { s with bus := s.groupReads i 1 } := rfl

theorem groupReads_succ (s : State) (base k : Nat) :
    s.groupReads base (k + 1) = s.groupReads base k ++ [.srcRead (base + k) (s.srcCell (base + k))] := by
  simp [State.groupReads, List.range_succ]

theorem groupReads_noteRead (s : State) (base k : Nat) :
    State.noteRead { s with bus := s.groupReads base k } (base + k) = { s with bus := s.groupReads base (k + 1) } := by
  rw [groupReads_succ]; rfl

theorem fieldAt_bus (c : Context) (s : State) (b : List Access) (i : Nat) :
    fieldAt c { s with bus := b } i = fieldAt c s i := rfl

theorem decodeLow_eq (c : Context) (s : State) : decodeLow c s.quiet = groupResult c s (groupOutcome c s) := by
  have h0 : fieldAt c s.quiet 0 = fieldAt c s 0 := rfl
  unfold decodeLow decodeHigh groupOutcome
  simp only [quiet_noteRead, groupReads_noteRead, fieldAt_bus, h0]
  rcases fieldAt c s 0 with _ | (f0 | _)
  · exact invalidAt_eq ..
  · rcases fieldAt c s 1 with _ | (f1 | _)
    · exact invalidAt_eq ..
    · rcases fieldAt c s 2 with _ | f2
      · exact invalidAt_eq ..
      · rcases fieldAt c s 3 with _ | f3
        · exact invalidAt_eq ..
        · exact (decodeBytes3_eq ..).trans (writeGroup_eq ..)
    · exact invalidAt_eq ..
  · exact invalidAt_eq ..

/-- A group step of DECODE on a group the input has (R22). -/
theorem decodeGroup_next (c : Context) (s : State) (h : c.g < decodeGroups c.n) :
    decodeGroup c s = .next (groupResult c s (groupOutcome c s)) := by
  unfold decodeGroup
  rw [if_pos h, decodeLow_eq]

/-- DECODE has no group beyond its last (R18). -/
theorem decodeGroup_fault (c : Context) (s : State) (h : decodeGroups c.n ≤ c.g) :
    decodeGroup c s = .fault .noSuchGroup := by
  unfold decodeGroup
  rw [if_neg (by omega)]

/-- A bad position is one of the four, is not accepted itself, and has only accepted positions before it (R137). -/
theorem groupOutcome_bad {c : Context} {s : State} {k : Nat} (h : groupOutcome c s = .bad k) :
    k < 4 ∧ (∀ j < k, (fieldAt c s j).isSome = true) ∧ (fieldAt c s k = none ∨ (k < 2 ∧ fieldAt c s k = some .pad)) := by
  unfold groupOutcome at h
  split at h
  · rename_i f0 h0
    split at h
    · rename_i f1 h1
      split at h
      · rename_i f2 h2
        split at h
        · cases h
        · rename_i h3
          injection h with h; subst h
          refine ⟨by omega, fun j hj => ?_, .inl h3⟩
          interval_cases j <;> simp [*]
      · rename_i h2
        injection h with h; subst h
        refine ⟨by omega, fun j hj => ?_, .inl h2⟩
        interval_cases j <;> simp [*]
    · rename_i h1
      injection h with h; subst h
      refine ⟨by omega, fun j hj => ?_, ?_⟩
      · interval_cases j; simp [*]
      · rcases hf : fieldAt c s 1 with _ | (v | _)
        · exact .inl rfl
        · exact absurd hf (h1 v)
        · exact .inr ⟨by omega, rfl⟩
  · rename_i h0
    injection h with h; subst h
    refine ⟨by omega, fun j hj => by omega, ?_⟩
    rcases hf : fieldAt c s 0 with _ | (v | _)
    · exact .inl rfl
    · exact absurd hf (h0 v)
    · exact .inr ⟨by omega, rfl⟩

/-- Accepted fields are what the four positions were looked up as. -/
theorem groupOutcome_fields {c : Context} {s : State} {f0 f1 : Sextet} {f2 f3 : Field}
    (h : groupOutcome c s = .fields f0 f1 f2 f3) :
    fieldAt c s 0 = some (.data f0) ∧ fieldAt c s 1 = some (.data f1) ∧ fieldAt c s 2 = some f2 ∧
      fieldAt c s 3 = some f3 := by
  unfold groupOutcome at h
  split at h
  · split at h
    · split at h
      · split at h
        · injection h with a b d e; subst a b d e; exact ⟨by assumption, by assumption, by assumption, by assumption⟩
        · cases h
      · cases h
    · cases h
  · cases h

end Sys2Proof.Machine
end

