-- ==== Sys2Proof/Laws/PerInstr.lean ====
section
/-! SUPPORT. Statements for all instructions, made per instruction. Family `WordFields`: the word of a well-formed command
carries its code and both its operands, whole (R70, R71). -/

namespace Sys2Proof.Laws.WordFields

/-- The three fields of the word of `i` are the code and the operands of `i`. -/
def Statement (i : Instr) : Prop :=
  i.wf = true → CmdWord.op (encodeWord i) = i.opcode ∧ CmdWord.dstCap (encodeWord i) = i.dstCap ∧
    CmdWord.srcLen (encodeWord i) = i.srcLen

theorem of_wf (i : Instr) : Statement i := by
  intro h
  simp only [Instr.wf, Instr.capFits, Instr.lenFits, Bool.and_eq_true, decide_eq_true_eq] at h
  exact ⟨op_encodeWord i, dstCap_encodeWord h.1, srcLen_encodeWord h.2⟩

theorem enclen (cap n : Nat) : Statement (.enclen cap n) := of_wf _

theorem encode (cap n : Nat) : Statement (.encode cap n) := of_wf _

theorem decode (cap n : Nat) : Statement (.decode cap n) := of_wf _

theorem reserved3 (cap n : Nat) : Statement (.reserved3 cap n) := of_wf _

end Sys2Proof.Laws.WordFields
end

