-- ==== Sys2Proof/Laws/Step.lean ====
section
/-! SUPPORT. What a step can do, said once: whose turn it is, and what the unit or the host then does. -/

namespace Sys2Proof.Machine

theorem unitEnabled_iff (s : State) : s.unitEnabled = true ↔
    s.rst = false ∧ ((s.mode = .idle ∧ s.cmd.isSome = true) ∨ (∃ c, s.mode = .run c) ∨
      (∃ r, s.mode = .done r ∧ s.take = true)) := by
  unfold State.unitEnabled
  cases s.rst <;> cases s.mode <;> simp

/-- Whose step it is, by the agenda. -/
theorem step_cases {s t : State} (h : step s = .next t) :
    (s.agenda = [] ∧ unitStep s = .next t) ∨
    (∃ rest, s.agenda = .turn :: rest ∧ unitStep { s with agenda := rest } = .next t) ∨
    (∃ rest, s.agenda = .wait :: rest ∧ s.unitEnabled = true ∧ unitStep s = .next t) ∨
    (∃ rest, s.agenda = .wait :: rest ∧ s.unitEnabled = false ∧ t = { s.quiet with agenda := rest }) ∨
    (∃ act rest, s.agenda = act :: rest ∧ act ≠ .turn ∧ act ≠ .wait ∧ t = { s.quiet with agenda := rest }.hostAct act) := by
  unfold step advance at h
  split at h
  · exact .inl ⟨by assumption, h⟩
  · exact .inr (.inl ⟨_, by assumption, h⟩)
  · rename_i rest ha
    split at h
    · exact .inr (.inr (.inl ⟨rest, ha, by assumption, h⟩))
    · injection h with h
      exact .inr (.inr (.inr (.inl ⟨rest, ha, Bool.eq_false_iff.2 ‹_›, h.symm⟩)))
  · rename_i act rest h1 h2 ha
    injection h with h
    exact .inr (.inr (.inr (.inr ⟨act, rest, ha, fun e => h1 (e ▸ rfl), fun e => h2 (e ▸ rfl), h.symm⟩)))

/-- An act of the host at the head of the agenda is the next step. -/
theorem step_of_act {s : State} {act : HostAct} {rest : List HostAct} (ha : s.agenda = act :: rest) (h1 : act ≠ .turn)
    (h2 : act ≠ .wait) : step s = .next ({ s.quiet with agenda := rest }.hostAct act) := by
  unfold step advance
  rw [ha]
  cases act <;> first | rfl | contradiction

/-- With an empty agenda the step is the unit's. -/
theorem step_of_free {s : State} (h : s.agenda = []) : step s = unitStep s := by
  unfold step advance; rw [h]

/-- An act of the host that leaves the mode and the loan keeps the mode consistent, if it leaves the mark `spoiled` too or
the operation in flight has buffers. -/
theorem State.modeOk_of_sameLoan {s t : State} (h : s.modeOk = true) (hm : t.mode = s.mode) (hl : t.loan = s.loan)
    (hs : t.spoiled = s.spoiled ∨ t.hasBuffers = true) : t.modeOk = true := by
  have hsrc : t.lentSrc = s.lentSrc := by unfold State.lentSrc; rw [hl]
  have hb := State.hasBuffers_congr hl
  rw [State.modeOk] at h ⊢
  rw [hm, hl, hsrc, hb]
  cases hmo : s.mode <;> simp only [hmo, Bool.and_eq_true, Bool.or_eq_true, decide_eq_true_eq] at h ⊢
  · rcases hs with hs | hs
    · rw [hs]; exact h
    · rw [hb, State.hasBuffers_iff, State.lentSrc_none h.1, State.lentDst_none h.1] at hs
      omega
  · exact h
  · rcases hs with hs | hs
    · rw [hs]; exact h
    · exact ⟨h.1, .inr (hb ▸ hs)⟩

/-- A write by the host spoils only an operation with buffers (R12, R197, R198). -/
theorem State.poke_spoils (s : State) (a : Nat) (v : Byte) :
    (s.poke a v).spoiled = s.spoiled ∨ (s.poke a v).hasBuffers = true := by
  show (s.spoiled || _ || _) = _ ∨ s.hasBuffers = true
  cases h1 : inWindow s.srcBase s.lentSrc a
  · cases h2 : inWindow s.dstBase s.lentDst a
    · exact .inl (by simp)
    · exact .inr (State.hasBuffers_of_inWindow (.inr h2))
  · exact .inr (State.hasBuffers_of_inWindow (.inl h1))

/-- A rebinding spoils only an operation with buffers (R12, R101; assumption 7). -/
theorem State.bindTo_spoils (s : State) (src dst : Nat) :
    (s.bindTo src dst).spoiled = s.spoiled ∨ (s.bindTo src dst).hasBuffers = true := by
  show (s.spoiled || s.hasBuffers) = _ ∨ s.hasBuffers = true
  cases s.hasBuffers
  · exact .inl (by simp)
  · exact .inr rfl

theorem runSteps_zero (s : State) : runSteps 0 s = .next s := rfl

theorem runSteps_succ {s t : State} (h : step s = .next t) (k : Nat) : runSteps (k + 1) s = runSteps k t := by
  have e : Sys2Proof.core.step s = .next t := h
  simp only [runSteps, Host.Core.run, e]
  rfl

/-- What the unit does in its own step, by its mode. -/
theorem unitStep_cases {s t : State} (h : unitStep s = .next t) :
    (s.rst = true ∧ t = s.quiet) ∨
    (s.rst = false ∧ s.mode = .idle ∧ s.cmd = none ∧ t = s.quiet) ∨
    (∃ w, s.rst = false ∧ s.mode = .idle ∧ s.cmd = some w ∧ exec (decodeWord w) s = .next t) ∨
    (∃ c, s.rst = false ∧ s.mode = .run c ∧ groupStep c s = .next t) ∨
    (∃ r, s.rst = false ∧ s.mode = .done r ∧ s.take = true ∧ t = s.takeResponse r) ∨
    (∃ r, s.rst = false ∧ s.mode = .done r ∧ s.take = false ∧ t = s.quiet) := by
  unfold unitStep at h
  cases hr : s.rst <;> cases hm : s.mode <;> simp only [hr, hm] at h
  · cases hc : s.cmd with
    | none => simp [hc] at h; exact .inr (.inl ⟨rfl, rfl, rfl, h.symm⟩)
    | some w => simp [hc] at h; exact .inr (.inr (.inl ⟨w, rfl, rfl, rfl, h⟩))
  · exact .inr (.inr (.inr (.inl ⟨_, rfl, rfl, by simpa using h⟩)))
  · cases ht : s.take <;> simp [ht] at h
    · exact .inr (.inr (.inr (.inr (.inr ⟨_, rfl, rfl, rfl, h.symm⟩))))
    · exact .inr (.inr (.inr (.inr (.inl ⟨_, rfl, rfl, rfl, h.symm⟩))))
  all_goals exact .inl ⟨rfl, by simpa using h.symm⟩

/-- The step of the unit when it is its turn, by its mode. -/
theorem step_of_unitsTurn {s : State} (h : UnitsTurn s) : step s = unitStep s := by
  exact step_of_free h.2

theorem step_of_run {s : State} {c : Context} (h : UnitsTurn s) (hm : s.mode = .run c) : step s = groupStep c s := by
  rw [step_of_unitsTurn h]; unfold unitStep; simp [h.1, hm]

theorem step_of_done {s : State} {r : Response} (h : UnitsTurn s) (hm : s.mode = .done r) (ht : s.take = true) :
    step s = .next (s.takeResponse r) := by
  rw [step_of_unitsTurn h]; unfold unitStep; simp [h.1, hm, ht]

theorem groupStep_encode {c : Context} (s : State) (ho : c.op = .encode) : groupStep c s = encodeGroup c s := by
  unfold groupStep; rw [ho]

theorem groupStep_decode {c : Context} (s : State) (ho : c.op = .decode) : groupStep c s = decodeGroup c s := by
  unfold groupStep; rw [ho]

theorem Context.groups_encode {c : Context} (ho : c.op = .encode) : c.groups = encodeGroups c.n := by
  unfold Context.groups; rw [ho]

theorem Context.groups_decode {c : Context} (ho : c.op = .decode) : c.groups = decodeGroups c.n := by
  unfold Context.groups; rw [ho]

/-- What a group step does, once for both operations: it writes consecutive cells and goes on or ends with `OK`, or it ends
with `INVALID_CHAR` inside its group and makes the rest of the destination `any`. -/
theorem groupStep_cases {c : Context} {s t : State} (h : groupStep c s = .next t) :
    c.g < c.groups ∧
    ((∃ k v, ∃ vs : List Byte, (c.op = .encode ∧ k ≤ 3 ∧ 3 * c.g + k ≤ c.n ∧ v = 0 ∧ vs.length = 4 ∧ t = { s with
        mode := if c.g + 1 = c.groups then .done ⟨.ok, v⟩ else .run { c with g := c.g + 1 }
        mem := Memory.writeAll s.mem (s.dstBase + 4 * c.g) vs
        bus := s.groupReads (3 * c.g) k ++ writesFrom (4 * c.g) vs })) ∨
     (∃ vs : List Byte, c.op = .decode ∧ vs.length ≤ 3 ∧ (∀ k, 0 < k → k < vs.length → 3 * c.g + k < c.cap) ∧ t = { s with
        mode := if c.g + 1 = c.groups then .done ⟨.ok, declen c.n c.p⟩ else .run { c with g := c.g + 1 }
        mem := Memory.writeAll s.mem (s.dstBase + 3 * c.g) vs
        bus := s.groupReads (4 * c.g) 4 ++ writesFrom (3 * c.g) vs }) ∨
     (∃ k, c.op = .decode ∧ k < 4 ∧ t = { s with
        mode := .done ⟨.invalidChar, 4 * c.g + k⟩
        mem := Memory.writeAll s.mem (s.dstBase + 3 * c.g) (freeBytes s.draws (c.cap - 3 * c.g))
        bus := s.groupReads (4 * c.g) (k + 1)
        draws := s.draws + (c.cap - 3 * c.g) })) := by
  rcases (by cases c.op <;> simp : c.op = .encode ∨ c.op = .decode) with ho | ho
  · rw [groupStep_encode s ho] at h
    rw [Context.groups_encode ho]
    by_cases hg : c.g < encodeGroups c.n
    · rw [encodeGroup_next c s hg] at h
      injection h with h
      obtain ⟨h1, h2⟩ := encodeSymbols_reads c s hg
      exact ⟨hg, .inl ⟨_, _, _, ho, h1, h2, rfl, encodeSymbols_length c s, h.symm⟩⟩
    · rw [encodeGroup_fault c s (by omega)] at h; cases h
  · rw [groupStep_decode s ho] at h
    rw [Context.groups_decode ho]
    by_cases hg : c.g < decodeGroups c.n
    · rw [decodeGroup_next c s hg] at h
      injection h with h
      refine ⟨hg, .inr ?_⟩
      cases hG : groupOutcome c s with
      | fields f0 f1 f2 f3 =>
        obtain ⟨h1, h2⟩ := groupBytes_bounds c f0 f1 f2 f3
        exact .inl ⟨_, ho, h1, h2, h.symm.trans (by rw [hG]; rfl)⟩
      | bad k => exact .inr ⟨k, ho, (groupOutcome_bad hG).1, h.symm.trans (by rw [hG]; rfl)⟩
    · rw [decodeGroup_fault c s (by omega)] at h; cases h

/-- What an accept step can do, once for the four commands (R21): nothing, or from an idle unit out of reset lend the
buffers and set the mode and the bus. -/
theorem exec_cases {i : Instr} {s t : State} (h : exec i s = .next t) :
    t = s ∨ (s.mode = .idle ∧ s.rst = false ∧ ∃ l m b,
      t = { s with mode := m, cmd := none, loan := some l, spoiled := s.overlaps l.srcLen l.dstCap, bus := b }) := by
  cases i <;> simp only [exec, execEnclen, execEncode, execDecode, execReserved3] at h <;> injection h with h <;>
    subst h
  · rcases State.accept_cases s ⟨0, 0⟩ _ with e | ⟨h1, h2, e⟩
    · exact .inl e
    · exact .inr ⟨h1, h2, ⟨0, 0⟩, _, _, e⟩
  · rename_i cap n
    rcases State.accept_cases s ⟨n, cap⟩ _ with e | ⟨h1, h2, e⟩
    · exact .inl e
    · refine .inr ⟨h1, h2, ⟨n, cap⟩, if cap < enclen n then .done ⟨.precondition, causeCapacity⟩ else
        if n = 0 then .done ⟨.ok, 0⟩ else .run { op := .encode, n := n, cap := cap, p := 0, g := 0 }, [], e.trans ?_⟩
      split
      · rfl
      · split <;> rfl
  · rename_i cap m
    rcases State.accept_cases s ⟨m, cap⟩ _ with e | ⟨h1, h2, e⟩
    · exact .inl e
    · right
      refine ⟨h1, h2, ⟨m, cap⟩, ?_⟩
      rw [e]
      split
      · exact ⟨_, _, rfl⟩
      · split
        · exact ⟨_, _, rfl⟩
        · exact ⟨_, _, acceptDecode_eq ..⟩
  · rcases State.accept_cases s ⟨0, 0⟩ _ with e | ⟨h1, h2, e⟩
    · exact .inl e
    · exact .inr ⟨h1, h2, ⟨0, 0⟩, _, _, e⟩

end Sys2Proof.Machine
end

