-- ==== Sys2Proof/Laws/Source.lean ====
section
/-! SUPPORT. The source buffer as a list, the characters of a group, and which writes leave the source alone: what proofs
about whole operations need beside the group steps. -/

namespace Sys2Proof.Machine

/-! The source as a list (Machine/Transaction.lean). -/

@[simp] theorem source_length (s : State) (n : Nat) : (s.source n).length = n := by simp [State.source]

theorem source_getD (s : State) {n i : Nat} (h : i < n) : (s.source n).getD i 0#8 = s.srcCell i := by
  simp [State.source, List.getD, h]

theorem source_drop {s : State} {n i : Nat} (h : i < n) :
    (s.source n).drop i = s.srcCell i :: (s.source n).drop (i + 1) := by
  have hl : i < (s.source n).length := by simpa using h
  rw [List.drop_eq_getElem_cons hl]
  simp [State.source]

theorem source_drop_nil {s : State} {n i : Nat} (h : n ≤ i) : (s.source n).drop i = [] :=
  List.drop_eq_nil_of_le (by simpa using h)

theorem source_congr {s t : State} {n : Nat} (h : ∀ i < n, t.srcCell i = s.srcCell i) : t.source n = s.source n :=
  List.map_congr_left fun a ha => h a (List.mem_range.1 ha)

/-- The pad count of the whole source is the one the accept step computes (R131). -/
theorem codecPadcount_source (s : State) {m : Nat} (h : 0 < m) :
    codecPadcount (s.source m) = (padcount (s.srcCell (m - 1)) (s.srcCell (m - 2))).val := by
  unfold codecPadcount
  rw [source_length, if_neg (by omega), source_getD _ (by omega), source_getD _ (by omega)]

/-! Writes and the source. -/

theorem overlaps_false {s : State} {n cap : Nat} (h : s.overlaps n cap = false) {i j : Nat} (hi : i < n) (hj : j < cap) :
    s.srcBase + i ≠ s.dstBase + j := by
  intro e
  rw [(State.overlaps_iff s n cap).2 ⟨i, hi, j, hj, e⟩] at h
  cases h

/-- Writes below `cap` leave a disjoint source as it is (R42, R54). -/
theorem srcCell_of_writeAll {s t : State} {n cap j : Nat} {vs : List Byte} (hov : s.overlaps n cap = false)
    (hm : t.mem = Memory.writeAll s.mem (s.dstBase + j) vs) (hb : t.srcBase = s.srcBase) (h : j + vs.length ≤ cap) :
    ∀ i < n, t.srcCell i = s.srcCell i := by
  intro i hi
  simp only [State.srcCell, State.cell, hm, hb]
  rw [Memory.read_writeAll_outside]
  by_contra hx
  exact overlaps_false hov hi (j := s.srcBase + i - s.dstBase) (by omega) (by omega)

/-! What the invariant says in `RUN`. -/

theorem Inv.run {s : State} {c : Context} (hi : Inv s) (hm : s.mode = .run c) :
    0 < c.n ∧ c.g < c.groups ∧ s.loan = some ⟨c.n, c.cap⟩ ∧ (c.op = .encode → enclen c.n ≤ c.cap) ∧
      (c.op = .decode → c.n % 4 = 0 ∧ declen c.n c.p ≤ c.cap) := by
  have h := hi.2.1
  simp only [State.modeOk, hm, Bool.and_eq_true, decide_eq_true_eq, Context.ok] at h
  obtain ⟨⟨⟨⟨⟨hn, _⟩, _⟩, hg⟩, hcap⟩, hl⟩ := h
  refine ⟨hn, hg, hl, fun ho => ?_, fun ho => ?_⟩ <;> rw [ho] at hcap
  · exact of_decide_eq_true ((Bool.and_eq_true _ _).mp hcap).1
  · exact ⟨of_decide_eq_true ((Bool.and_eq_true _ _).mp hcap).1, of_decide_eq_true ((Bool.and_eq_true _ _).mp hcap).2⟩

/-! Positions of a DECODE group. -/

theorem padLegal_iff (c : Context) (i : Nat) : padLegal c i = true ↔ c.g + 1 = c.n / 4 ∧ 4 - c.p.val ≤ i := by
  simp only [padLegal, Bool.and_eq_true, decide_eq_true_eq]; rfl

theorem fieldAt_isSome (c : Context) (s : State) (i : Nat) :
    (fieldAt c s i).isSome = positionOk c i (s.srcCell (4 * c.g + i)) := by
  unfold fieldAt positionOk
  cases dec (s.srcCell (4 * c.g + i)) <;> simp only [Option.isSome]
  cases padLegal c i <;> rfl

theorem fieldAt_of_sextet {c : Context} {s : State} {i : Nat} {v : Sextet}
    (h : dec (s.srcCell (4 * c.g + i)) = .sextet v) : fieldAt c s i = some (.data v) := by
  unfold fieldAt; rw [h]

/-- An accepted position is a sextet, or a pad where R135 allows one. -/
theorem fieldAt_some {c : Context} {s : State} {i : Nat} {f : Field} (h : fieldAt c s i = some f) :
    (∃ v, f = .data v ∧ dec (s.srcCell (4 * c.g + i)) = .sextet v) ∨
      (f = .pad ∧ dec (s.srcCell (4 * c.g + i)) = .pad ∧ c.g + 1 = c.n / 4 ∧ 4 - c.p.val ≤ i) := by
  unfold fieldAt at h
  split at h
  · rename_i v hv; injection h with h; exact .inl ⟨v, h.symm, hv⟩
  · rename_i hp
    split at h
    · rename_i hl
      injection h with h
      obtain ⟨h1, h2⟩ := (padLegal_iff c i).1 hl
      exact .inr ⟨h.symm, hp, h1, h2⟩
    · cases h
  · cases h

/-- Positions 0 and 1 are never an accepted pad (R135). -/
theorem fieldAt_low {c : Context} {s : State} {i : Nat} (hi : i < 2) : fieldAt c s i ≠ some .pad := by
  intro h
  rcases fieldAt_some h with ⟨v, h, _⟩ | ⟨_, _, _, h⟩
  · cases h
  · have := c.p.isLt; omega

/-- The first position that is not accepted is the outcome of the group (R137). -/
theorem groupOutcome_of_bad {c : Context} {s : State} {k : Nat} (hk : k < 4)
    (h1 : ∀ j < k, (fieldAt c s j).isSome = true) (h2 : (fieldAt c s k).isSome = false) : groupOutcome c s = .bad k := by
  cases hG : groupOutcome c s with
  | fields =>
    obtain ⟨a, b, d, e⟩ := groupOutcome_fields hG
    exfalso
    interval_cases k <;> simp_all
  | bad k' =>
    obtain ⟨ha, hb, hc⟩ := groupOutcome_bad hG
    have hc' : fieldAt c s k' = none := hc.resolve_right fun h => fieldAt_low h.1 h.2
    rcases Nat.lt_trichotomy k k' with h | h | h
    · simp [hb k h] at h2
    · simp [h]
    · have := h1 k' h; simp [hc'] at this

/-! Whole encodings, group by group. -/

/-- What is left to encode from group `g` on: this group's symbols, then the rest (R110, R112 to R114). -/
theorem codecEncode_drop {s : State} {c : Context} (hg : c.g < encodeGroups c.n) :
    codecEncode ((s.source c.n).drop (3 * c.g)) =
      (encodeSymbols c s).2 ++ codecEncode ((s.source c.n).drop (3 * (c.g + 1))) := by
  unfold encodeGroups at hg
  unfold encodeSymbols
  by_cases h1 : c.g < c.n / 3
  · rw [source_drop (by omega), source_drop (i := 3 * c.g + 1) (by omega),
      source_drop (i := 3 * c.g + 1 + 1) (by omega), if_pos h1]
    rfl
  · rw [if_neg h1]
    by_cases h2 : c.n % 3 = 1
    · rw [source_drop (by omega), source_drop_nil (i := 3 * c.g + 1) (by omega), source_drop_nil (by omega), if_pos h2]
      rfl
    · rw [source_drop (by omega), source_drop (i := 3 * c.g + 1) (by omega),
        source_drop_nil (i := 3 * c.g + 1 + 1) (by omega), source_drop_nil (by omega), if_neg h2]
      rfl

/-! Runs. -/

theorem runSteps_add (a b : Nat) {s t : State} (h : runSteps a s = .next t) : runSteps (a + b) s = runSteps b t := by
  induction a generalizing s with
  | zero => rw [runSteps_zero] at h; injection h with h; rw [h, Nat.zero_add]
  | succ a ih =>
    cases hs : step s with
    | next u => rw [runSteps_succ hs] at h; rw [show a + 1 + b = (a + b) + 1 by omega, runSteps_succ hs]; exact ih h
    | fault =>
      have e : Sys2Proof.core.step s = _ := hs
      simp only [runSteps, Host.Core.run, e] at h; cases h
    | refused =>
      have e : Sys2Proof.core.step s = _ := hs
      simp only [runSteps, Host.Core.run, e] at h; cases h

end Sys2Proof.Machine
end

