-- ==== Sys2Proof/Machine/Text.lean ====
section
/-! DEFINITION. The text form of commands and responses (R74). -/

namespace Sys2Proof.Machine

/-- A command in text, its buffers named `dst` and `src` (R74). ENCLEN takes one operand (R73). The reserved code has no
text form of its own (opcode_table.json: "(none; reserved operation code)"). -/
def commandText (dst src : String) : Instr → Option String
  | .enclen _ n => some ("ENCLEN " ++ toString n)
  | .encode cap n => some ("ENCODE " ++ dst ++ ", " ++ toString cap ++ ", " ++ src ++ ", " ++ toString n)
  | .decode cap n => some ("DECODE " ++ dst ++ ", " ++ toString cap ++ ", " ++ src ++ ", " ++ toString n)
  | .reserved3 _ _ => none

/-- The name of a status (R160). -/
def Status.text : Status → String
  | .ok => "OK"
  | .invalidChar => "INVALID_CHAR"
  | .precondition => "PRECONDITION"
  | .illegalOp => "ILLEGAL_OP"

/-- A response in text, `-> (STATUS, value)` (R74). -/
def Response.text (r : Response) : String := "-> (" ++ r.status.text ++ ", " ++ toString r.value ++ ")"

end Sys2Proof.Machine
end

