-- ==== Sys2Proof/Tests/Slice0.lean ====
section
/-! SUPPORT. Tests: words and vectors of the spec (95_test_vectors.md, 30_encoding.md) on single steps, and for every
obligation with hypotheses a concrete state that meets them (`witness_<name of the obligation>`). -/

open Sys2Proof Sys2Proof.Machine

/-! Helpers. -/

/-- The state of an outcome, if it is one. -/
def Tests.stateOf : Host.Outcome State Fault Refusal → Option State
  | .next s => some s
  | _ => none

/-- The mode after an outcome. -/
def Tests.modeOf (o : Host.Outcome State Fault Refusal) : Option Mode := (Tests.stateOf o).map State.mode

/-- Idle, source cells at 0, destination cells from 100 on. -/
def Tests.idle (src : List Byte) : State :=
  { State.reset with mem := Memory.writeAll [] 0 src, dstBase := 100 }

/-- A command of `op` on these source cells, in `RUN` at group `g`, with its buffers lent. -/
def Tests.running (op : Transform) (src : List Byte) (cap : Nat) (p : Fin 3) (g : Nat) : State :=
  { Tests.idle src with
    mode := .run ⟨op, src.length, cap, p, g⟩, loan := some ⟨src.length, cap⟩ }

/-- A response pending, with buffers lent, the host ready to take it. -/
def Tests.pending (r : Response) : State :=
  { Tests.idle [] with mode := .done r, loan := some ⟨4, 3⟩, take := true }

/-- A command offered to an idle unit, the host ready for the response. -/
def Tests.launched (i : Instr) (src : List Byte) : State :=
  { Tests.idle src with cmd := some (encodeWord i), take := true }

/-- The destination cells `0..k-1` after an outcome. -/
def Tests.dstOf (o : Host.Outcome State Fault Refusal) (k : Nat) : Option (List Byte) :=
  (Tests.stateOf o).map fun t => (List.range k).map t.dstCell

/-! Smoke tests of well-formedness: one ill-formed command for each check. -/

theorem test_wf_capFits_refuses : (Instr.encode 4294967296 1).capFits = false ∧ (Instr.encode 4294967296 1).wf = false := by
  decide
theorem test_wf_lenFits_refuses : (Instr.decode 3 4294967296).lenFits = false ∧ (Instr.decode 3 4294967296).wf = false := by
  decide
theorem test_wf_accepts_all_ones : (Instr.reserved3 4294967295 4294967295).wf = true := by decide

/-! Decoding, from words written out bit by bit by 30_encoding.md section 1: `op` (2 bits), `dst_cap` (32), `src_len` (32). -/

/-- `ENCLEN 5` with `dst_cap = 4294967295`, 95_test_vectors.md section 2.1: `0x0FFFFFFFF00000005`. -/
theorem test_decode_enclen_word :
    decodeWord 0b00_11111111111111111111111111111111_00000000000000000000000000000101#66 = .enclen 4294967295 5 := by decide

/-- `ENCODE dst, 10, src, 1`, vector E34: `0x10000000A00000001`. -/
theorem test_decode_encode_word :
    decodeWord 0b01_00000000000000000000000000001010_00000000000000000000000000000001#66 = .encode 10 1 := by decide

/-- `DECODE dst, 6, src, 8`, vector X4: `0x20000000600000008`. -/
theorem test_decode_decode_word :
    decodeWord 0b10_00000000000000000000000000000110_00000000000000000000000000001000#66 = .decode 6 8 := by decide

/-- The reserved code of program P4: `0x30000000400000001`. -/
theorem test_decode_reserved_word :
    decodeWord 0b11_00000000000000000000000000000100_00000000000000000000000000000001#66 = .reserved3 4 1 := by decide

/-- The opcode table's numbering: bit 0 is the least significant bit of `src_len`, bits 65 and 64 are `op`. -/
theorem test_decode_table_word : decodeTableWord 66 (2 ^ 65 + 3 * 2 ^ 32 + 4) = some (.decode 3 4) := by decide

/-- A number wider than a command word, and a byte string of another length, are refused by name. -/
theorem test_decode_refuses_by_name :
    decodeBits (2 ^ 66) = .error .widerThanCommandWord ∧ decodeBytes [0x05#8] = .error .notNineBytes := ⟨rfl, rfl⟩

/-- The encoder gives vector F7's word back. -/
theorem test_encode_word : encodeWord (.encode 4294967295 4294967295) = 0x1FFFFFFFFFFFFFFFF#66 := by decide

/-! Accept steps. -/

/-- 95_test_vectors.md section 2.1: `ENCLEN 4294967295` gives `(OK, 5726623060)`. -/
theorem test_enclen_largest :
    Tests.modeOf (exec (.enclen 0 4294967295) (Tests.idle [])) = some (.done ⟨.ok, 5726623060⟩) := by decide

/-- Section 2.1: `ENCLEN 7` gives `(OK, 12)`, as the word `0x00000000C`. -/
theorem test_enclen_word : (Response.word ⟨.ok, enclen 7⟩) = 0x00000000C#35 := by decide

/-- Vectors F4 and E2: one cell short is `PRECONDITION(2)`; exactly enough goes to `RUN`. -/
theorem test_encode_capacity :
    Tests.modeOf (exec (.encode 7 4) (Tests.idle [])) = some (.done ⟨.precondition, 2⟩) ∧
      Tests.modeOf (exec (.encode 4 1) (Tests.idle [])) = some (.run ⟨.encode, 1, 4, 0, 0⟩) := by decide

/-- Vector Q5, `QU!=` into one cell: the capacity is checked before the bad character; `src[3]`, then `src[2]` are read. -/
theorem test_decode_capacity_hides_bad_char :
    (Tests.stateOf (exec (.decode 1 4) (Tests.idle [0x51#8, 0x55#8, 0x21#8, 0x3D#8]))).map
      (fun t => (t.mode, t.bus)) =
    some (.done ⟨.precondition, 2⟩, [.srcRead 3 0x3D#8, .srcRead 2 0x21#8]) := by decide

/-- Program P4, row 1: `(ILLEGAL_OP, 0)` is the word `0x600000000`. -/
theorem test_reserved_is_illegal :
    Tests.modeOf (exec (.reserved3 4 1) (Tests.idle [])) = some (.done ⟨.illegalOp, 0⟩) ∧
      Response.word ⟨.illegalOp, 0⟩ = 0x600000000#35 := by decide

/-! Group steps. -/

/-- Vector E21, second group: the two-byte tail `03 D9` of five bytes gives `A9k=` in cells 4 to 7. -/
theorem test_encode_two_byte_tail :
    (Tests.dstOf (groupStep ⟨.encode, 5, 8, 0, 1⟩
      (Tests.running .encode [0x14#8, 0xFB#8, 0x9C#8, 0x03#8, 0xD9#8] 8 0 1)) 8).map (List.drop 4) =
    some [0x41#8, 0x39#8, 0x6B#8, 0x3D#8] := by decide

/-- Vector K9, second group: `bG8=` with `p = 1` gives `6C 6F`, and the response is `(OK, 5)`. -/
theorem test_decode_padded_group :
    (Tests.stateOf (groupStep ⟨.decode, 8, 5, 1, 1⟩
      (Tests.running .decode [0x61#8, 0x47#8, 0x56#8, 0x73#8, 0x62#8, 0x47#8, 0x38#8, 0x3D#8] 5 1 1))).map
      (fun t => (t.mode, t.dstCell 3, t.dstCell 4)) = some (.done ⟨.ok, 5⟩, 0x6C#8, 0x6F#8) := by decide

/-- Vector X14, `Q=Q=`: the misplaced pad at index 1 ends it, although the pad at index 3 is legal. -/
theorem test_decode_misplaced_pad :
    (Tests.stateOf (groupStep ⟨.decode, 4, 3, 1, 0⟩
      (Tests.running .decode [0x51#8, 0x3D#8, 0x51#8, 0x3D#8] 3 1 0))).map
      (fun t => (t.mode, t.bus.length)) = some (.done ⟨.invalidChar, 1⟩, 2) := by decide

/-- Section 2.8 and table T-DEC: first and last entries, the pad, the codes just outside, and the hardware codes of R86. -/
theorem test_dec_corners :
    dec 0x2B#8 = .sextet 62#6 ∧ dec 0x7A#8 = .sextet 51#6 ∧ dec 0x3D#8 = .pad ∧ dec 0x2A#8 = .inv ∧ dec 0x7B#8 = .inv ∧
      DecEntry.hwCode .inv = 0xFF#8 ∧ DecEntry.hwCode .pad = 0xFE#8 := by decide

/-- The text form of scenario S1 and of its response (R74). -/
theorem test_text_form :
    commandText "dst" "src" (.encode 4 1) = some "ENCODE dst, 4, src, 1" ∧
      Response.text ⟨.ok, 0⟩ = "-> (OK, 0)" := by decide

/-! Witnesses: states and operands that meet all the hypotheses of each obligation. -/

theorem witness_SampleCommandWordsDecode : 2 ^ 66 ≤ 2 ^ 66 ∧ 2 ^ 66 ≤ 2 ^ 72 + 1 := by decide

theorem witness_DecodeOfEncodeIsTheCommand : (Instr.encode 4294967295 4294967295).wf = true := by decide

theorem witness_CommandWordLayout : 4294967295 < 2 ^ 32 ∧ 0 < 2 ^ 32 := by decide

theorem witness_ResponseWordLayout : 8589934591 < 2 ^ 33 := by decide

/-- Both clauses: an empty agenda, and an agenda that gives the unit its turn. -/
theorem witness_OfferedCommandIsExecuted :
    (UnitIdle (Tests.launched (.enclen 0 5) []) ∧ (Tests.launched (.enclen 0 5) []).cmd = some (encodeWord (.enclen 0 5)) ∧
      (Tests.launched (.enclen 0 5) []).agenda = []) ∧
    (UnitIdle { Tests.launched (.enclen 0 5) [] with agenda := [.turn, .wait] } ∧
      { Tests.launched (.enclen 0 5) [] with agenda := [.turn, .wait] }.agenda = .turn :: [.wait]) := by decide

theorem witness_PresentedBitsAreTheNextCommand : 2 ^ 66 - 1 < 2 ^ 66 := by decide

theorem witness_EnclenAnswersTheEncodedLength : UnitIdle State.reset := by decide

theorem witness_EncodeAcceptStep : UnitIdle (Tests.idle [0x41#8]) := by decide

theorem witness_DecodeAcceptStep : UnitIdle (Tests.idle [0x51#8, 0x51#8, 0x3D#8, 0x3D#8]) := by decide

theorem witness_ReservedCodeIsIllegalOp : UnitIdle (Tests.idle []) := by decide

theorem witness_AcceptStepsLendBuffersAndChangeNoCell : UnitIdle (Tests.idle [0x41#8]) := by decide

theorem witness_CommandOutsideIdleStaysOffered :
    (Tests.pending ⟨.ok, 3⟩).mode ≠ .idle ∧ (Tests.pending ⟨.ok, 3⟩).agenda = [] ∧
      ∃ t, step (Tests.pending ⟨.ok, 3⟩) = .next t := ⟨by decide, rfl, _, rfl⟩

/-- The first of two complete groups, and the last. -/
theorem witness_EncodeCompleteGroupStep :
    (UnitsTurn (Tests.running .encode [0x41#8, 0x42#8, 0x43#8, 0x44#8, 0x45#8, 0x46#8] 8 0 0) ∧ 0 < 6 / 3) ∧
    (UnitsTurn (Tests.running .encode [0x41#8, 0x42#8, 0x43#8, 0x44#8, 0x45#8, 0x46#8] 8 0 1) ∧ 1 < 6 / 3) ∧
    (Tests.running .encode [0x41#8, 0x42#8, 0x43#8, 0x44#8, 0x45#8, 0x46#8] 8 0 1).mode = .run ⟨.encode, 6, 8, 0, 1⟩ := by
  decide

theorem witness_EncodeOneByteTailStep :
    UnitsTurn (Tests.running .encode [0x41#8] 4 0 0) ∧
      (Tests.running .encode [0x41#8] 4 0 0).mode = .run ⟨.encode, 1, 4, 0, 0⟩ ∧ 0 = 1 / 3 ∧ 1 % 3 = 1 := by decide

theorem witness_EncodeTwoByteTailStep :
    UnitsTurn (Tests.running .encode [0x41#8, 0x42#8] 4 0 0) ∧
      (Tests.running .encode [0x41#8, 0x42#8] 4 0 0).mode = .run ⟨.encode, 2, 4, 0, 0⟩ ∧ 0 = 2 / 3 ∧ 2 % 3 = 2 := by decide

/-- `QU!=`: positions 0 and 1 are accepted, position 2 is not. -/
theorem witness_DecodeGroupReportsTheFirstBadPosition :
    let s := Tests.running .decode [0x51#8, 0x55#8, 0x21#8, 0x3D#8] 3 1 0
    let c : Context := ⟨.decode, 4, 3, 1, 0⟩
    UnitsTurn s ∧ s.mode = .run c ∧ c.g < c.n / 4 ∧
      (∀ j < 2, positionOk c j (s.srcCell (4 * c.g + j)) = true) ∧
      positionOk c 2 (s.srcCell (4 * c.g + 2)) = false := by decide

/-- The boundaries of the position: `!UJD` fails at 0, `QUJ!` at 3. -/
theorem witness_DecodeGroupReportsTheFirstBadPosition_ends :
    positionOk ⟨.decode, 4, 3, 0, 0⟩ 0 ((Tests.running .decode [0x21#8, 0x55#8, 0x4A#8, 0x44#8] 3 0 0).srcCell 0) = false ∧
    (∀ j < 3, positionOk ⟨.decode, 4, 3, 0, 0⟩ j
      ((Tests.running .decode [0x51#8, 0x55#8, 0x4A#8, 0x21#8] 3 0 0).srcCell j) = true) ∧
    positionOk ⟨.decode, 4, 3, 0, 0⟩ 3 ((Tests.running .decode [0x51#8, 0x55#8, 0x4A#8, 0x21#8] 3 0 0).srcCell 3) = false := by
  decide

/-- The three shapes of a good group: no pad (`QUJD`), one (`QUI=`), two (`QQ==`). -/
theorem witness_DecodeGroupWritesItsBytes :
    let s := Tests.running .decode [0x51#8, 0x55#8, 0x4A#8, 0x44#8] 3 0 0
    let s1 := Tests.running .decode [0x51#8, 0x55#8, 0x49#8, 0x3D#8] 2 1 0
    let s2 := Tests.running .decode [0x51#8, 0x51#8, 0x3D#8, 0x3D#8] 1 2 0
    (UnitsTurn s ∧ Inv s ∧ s.spoiled = false ∧ s.mode = .run ⟨.decode, 4, 3, 0, 0⟩ ∧
      dec (s.srcCell 0) = .sextet 16#6 ∧ dec (s.srcCell 1) = .sextet 20#6 ∧ dec (s.srcCell 2) = .sextet 9#6 ∧
      dec (s.srcCell 3) = .sextet 3#6) ∧
    (UnitsTurn s1 ∧ Inv s1 ∧ dec (s1.srcCell 0) = .sextet 16#6 ∧ dec (s1.srcCell 1) = .sextet 20#6 ∧
      positionOk ⟨.decode, 4, 2, 1, 0⟩ 2 (s1.srcCell 2) = true ∧ dec (s1.srcCell 3) = .pad ∧
      positionOk ⟨.decode, 4, 2, 1, 0⟩ 3 (s1.srcCell 3) = true) ∧
    (UnitsTurn s2 ∧ Inv s2 ∧ dec (s2.srcCell 0) = .sextet 16#6 ∧ dec (s2.srcCell 1) = .sextet 16#6 ∧
      dec (s2.srcCell 2) = .pad ∧ positionOk ⟨.decode, 4, 1, 2, 0⟩ 2 (s2.srcCell 2) = true ∧
      positionOk ⟨.decode, 4, 1, 2, 0⟩ 3 (s2.srcCell 3) = true) := by decide

theorem witness_DecodeGroupWritesItsBytes_padCount :
    PadCountHolds (Tests.running .decode [0x51#8, 0x55#8, 0x4A#8, 0x44#8] 3 0 0) ∧
    PadCountHolds (Tests.running .decode [0x51#8, 0x55#8, 0x49#8, 0x3D#8] 2 1 0) ∧
    PadCountHolds (Tests.running .decode [0x51#8, 0x51#8, 0x3D#8, 0x3D#8] 1 2 0) :=
  ⟨fun _ _ => ⟨by decide, by decide⟩, fun _ _ => ⟨by decide, by decide⟩, fun _ _ => ⟨by decide, by decide⟩⟩

theorem witness_GroupStepsKeepTheContext :
    UnitsTurn (Tests.running .encode [0x41#8, 0x42#8, 0x43#8, 0x44#8] 8 0 0) ∧
    ∃ t, step (Tests.running .encode [0x41#8, 0x42#8, 0x43#8, 0x44#8] 8 0 0) = .next t ∧
      t.mode = .run ⟨.encode, 4, 8, 0, 1⟩ := ⟨by decide, _, rfl, rfl⟩

/-- An ENCODE group, a DECODE group that is good, and one that is not. -/
theorem witness_GroupAccessesAscend :
    UnitsTurn (Tests.running .encode [0x41#8] 4 0 0) ∧ (∃ t, step (Tests.running .encode [0x41#8] 4 0 0) = .next t) ∧
    (∃ t, step (Tests.running .decode [0x51#8, 0x51#8, 0x3D#8, 0x3D#8] 1 2 0) = .next t) ∧
    (∃ t, step (Tests.running .decode [0x51#8, 0x55#8, 0x21#8, 0x3D#8] 3 1 0) = .next t) :=
  ⟨by decide, ⟨_, rfl⟩, ⟨_, rfl⟩, ⟨_, rfl⟩⟩

theorem witness_TakeStepReturnsTheResponse :
    UnitsTurn (Tests.pending ⟨.invalidChar, 2⟩) ∧ (Tests.pending ⟨.invalidChar, 2⟩).mode = .done ⟨.invalidChar, 2⟩ ∧
      (Tests.pending ⟨.invalidChar, 2⟩).take = true ∧ (Tests.pending ⟨.invalidChar, 2⟩).spoiled = false := by decide

theorem witness_UntakenResponseStays :
    let s := { Tests.pending ⟨.ok, 3⟩ with take := false }
    s.agenda = [] ∧ s.mode = .done ⟨.ok, 3⟩ ∧ s.take = false := by decide

/-- With an unspoiled operation, the last clause too; and with a spoiled one, on both sides of the lent window. -/
theorem witness_TakeForgetsTheResponse :
    let s := Tests.pending ⟨.ok, 3⟩
    let s' := { s with spoiled := true }
    UnitsTurn s ∧ s.mode = .done ⟨.ok, 3⟩ ∧ s.take = true ∧ s.spoiled = false ∧
      UnitsTurn s' ∧ s'.mode = .done ⟨.ok, 3⟩ ∧ s'.take = true ∧
      inWindow s'.dstBase s'.lentDst 99 = false ∧ inWindow s'.dstBase s'.lentDst 103 = false := by decide

/-- In flight, and with nothing in flight; the cell just above the lent window is outside it. -/
theorem witness_AssertedResetEndsTheOperation :
    { Tests.pending ⟨.ok, 3⟩ with agenda := [.rst true, .rst false] }.agenda = .rst true :: [.rst false] ∧
      inWindow 100 3 103 = false ∧ inWindow 100 3 102 = true ∧
      ({ Tests.idle [] with agenda := [.rst true] } : State).loan = none := by decide

theorem witness_UnitHeldInReset :
    ({ Tests.launched (.enclen 0 5) [] with rst := true } : State).agenda = [] ∧
      ({ Tests.launched (.enclen 0 5) [] with rst := true } : State).rst = true := by decide

/-- The release, with a command on offer. -/
theorem witness_UnitHeldInReset_release :
    let s := { Tests.launched (.enclen 0 5) [] with rst := true, agenda := [.rst false] }
    Inv s ∧ s.rst = true ∧ s.agenda = [.rst false] ∧ s.cmd = some (encodeWord (.enclen 0 5)) := by decide

theorem witness_HostWriteSpoilsOnlyLentBuffers :
    ({ Tests.pending ⟨.ok, 3⟩ with agenda := [.poke 101 0x00#8] } : State).agenda = .poke 101 0x00#8 :: [] := rfl

/-- A cell that is lent and one that is not. -/
theorem witness_HostReadDisturbsNothing :
    let s := { Tests.pending ⟨.ok, 3⟩ with agenda := [.peek 103, .peek 102] }
    s.agenda = .peek 103 :: [.peek 102] ∧ inWindow s.dstBase s.lentDst 103 = false ∧
      inWindow s.dstBase s.lentDst 102 = true := by decide

/-- Nothing in flight; ENCLEN in flight, which is lent no cell; an operation lent one cell on either side. -/
theorem witness_PortsRebindBetweenOperations :
    let s := { Tests.idle [] with agenda := [.bindPorts 7 50] }
    s.agenda = .bindPorts 7 50 :: [] ∧ s.loan = none ∧
      { s with mode := .done ⟨.ok, 8⟩, loan := some ⟨0, 0⟩ }.loan = some ⟨0, 0⟩ ∧
      { s with mode := .done ⟨.ok, 0⟩, loan := some ⟨0, 1⟩ }.loan = some ⟨0, 1⟩ ∧
      { s with mode := .done ⟨.precondition, 2⟩, loan := some ⟨1, 0⟩ }.loan = some ⟨1, 0⟩ ∧
      inWindow s.dstBase 1 99 = false ∧ inWindow s.dstBase 1 101 = false := by decide

/-- R12, R101: ENCLEN has no buffer, so a rebinding before the take step leaves its response the one it answered. -/
theorem test_rebinding_leaves_enclen :
    (Tests.stateOf (step { Tests.idle [] with
      mode := .done ⟨.ok, 8⟩, loan := some ⟨0, 0⟩, take := true, agenda := [.bindPorts 7 50] })).map
        (fun t => (t.mode, t.spoiled)) = some (.done ⟨.ok, 8⟩, false) := by decide

/-- Assumption 7: an operation that was lent cells is spoiled. -/
theorem test_rebinding_spoils_lent_buffers :
    (Tests.stateOf (step { Tests.pending ⟨.ok, 3⟩ with agenda := [.bindPorts 7 50] })).map State.spoiled = some true := by
  decide

theorem witness_SpoiledOperationEndsSoundly :
    let s := { Tests.pending ⟨.ok, 3⟩ with spoiled := true }
    UnitsTurn s ∧ s.mode = .done ⟨.ok, 3⟩ ∧ s.take = true ∧ s.spoiled = true := by decide

/-- A state in `RUN` that satisfies the invariant and makes a step. -/
theorem witness_StepKeepsTheInvariant :
    Inv (Tests.running .encode [0x41#8, 0x42#8, 0x43#8, 0x44#8] 8 0 0) ∧
      ∃ t, step (Tests.running .encode [0x41#8, 0x42#8, 0x43#8, 0x44#8] 8 0 0) = .next t := ⟨by decide, _, rfl⟩

theorem witness_StepKeepsThePadCount :
    let s := Tests.running .decode [0x51#8, 0x55#8, 0x4A#8, 0x44#8, 0x51#8, 0x51#8, 0x3D#8, 0x3D#8] 4 2 0
    Inv s ∧ PadCountHolds s ∧ ∃ t, step s = .next t :=
  ⟨by decide, fun _ _ => ⟨by decide, by decide⟩, _, rfl⟩

theorem witness_StepAlwaysGoesOn : Inv (Tests.running .decode [0x51#8, 0x51#8, 0x3D#8, 0x3D#8] 1 2 0) := by decide

theorem witness_RunningOperationReachesDone :
    let s := Tests.running .encode [0x41#8, 0x42#8, 0x43#8, 0x44#8] 8 0 0
    Inv s ∧ UnitsTurn s ∧ s.mode = .run ⟨.encode, 4, 8, 0, 0⟩ := by decide

/-- The cells on both sides of the lent window are outside it. -/
theorem witness_UnitWritesOnlyLentDestination :
    let s := Tests.running .encode [0x41#8] 4 0 0
    Inv s ∧ s.agenda = [] ∧ (∃ t, step s = .next t) ∧ inWindow s.dstBase s.lentDst 99 = false ∧
      inWindow s.dstBase s.lentDst 104 = false := ⟨by decide, rfl, ⟨_, rfl⟩, by decide, by decide⟩

theorem witness_AccessesStayInsideTheBuffers :
    let s := Tests.running .encode [0x41#8] 4 0 0
    Inv s ∧ s.agenda = [] ∧ ∃ t, step s = .next t ∧ .dstWrite 3 0x3D#8 ∈ t.bus := ⟨by decide, rfl, _, rfl, by decide⟩

/-- An accept step that ends in `DONE`, and a group step of each operation that does. -/
theorem witness_OperationsEndWithTheirStatuses :
    (UnitIdle (Tests.idle []) ∧ ∃ t r, exec (.decode 0 6) (Tests.idle []) = .next t ∧ t.mode = .done r) ∧
    (UnitsTurn (Tests.running .encode [0x41#8] 4 0 0) ∧
      ∃ t r, step (Tests.running .encode [0x41#8] 4 0 0) = .next t ∧ t.mode = .done r) ∧
    (∃ t r, step (Tests.running .decode [0x51#8, 0x55#8, 0x21#8, 0x3D#8] 3 1 0) = .next t ∧ t.mode = .done r) :=
  ⟨⟨by decide, _, _, rfl, rfl⟩, ⟨by decide, _, _, rfl, rfl⟩, _, _, rfl, rfl⟩

/-- Empty input: every premise holds and the accept step ends the operation; and a group step that ends one. -/
theorem witness_CleanCommandsGiveNoHostBugResponse :
    (UnitIdle (Tests.idle []) ∧ lenOk (.decode 0 0) = true ∧ capOk (.decode 0 0) ((Tests.idle []).source 0) = true ∧
      opOk (.decode 0 0) = true ∧ ∃ t r, exec (.decode 0 0) (Tests.idle []) = .next t ∧ t.mode = .done r) ∧
    (UnitsTurn (Tests.running .encode [0x41#8] 4 0 0) ∧
      ∃ t r, step (Tests.running .encode [0x41#8] 4 0 0) = .next t ∧ t.mode = .done r) :=
  ⟨⟨by decide, by decide, by decide, by decide, _, _, rfl, rfl⟩, by decide, _, _, rfl, rfl⟩

theorem witness_EnclenProperties : 4294967294 ≤ 4294967295 ∧ 4294967295 < 2 ^ Config.lenW := by decide

theorem witness_PadCountReadsTheLastTwoCells : ([0x51#8, 0x51#8] : List Byte).length + 2 ≥ 4 := by decide

/-- The codes on both sides of the table. -/
theorem witness_DecodeTableClassifies :
    (0x2A#8).toNat < 0x2B ∧ 0x7A < (0x7B#8).toNat ∧ 0x2B ≤ (0x2B#8).toNat ∧ (0x7A#8).toNat ≤ 0x7A := by decide

theorem witness_EncodingPadsOnlyTheTail : 3 < (codecEncode [0x41#8]).length := by decide

theorem witness_EncodingStaysInTheAlphabet : 0x3D#8 ∈ codecEncode [0x41#8] ∧ 0x51#8 ∈ codecEncode [0x41#8] := by decide

theorem witness_DecodedLengthIsDeclen :
    ([0x51#8, 0x51#8, 0x3D#8, 0x3D#8] : List Byte).length % 4 = 0 ∧
      codecDecode [0x51#8, 0x51#8, 0x3D#8, 0x3D#8] = .ok [0x41#8] := ⟨by decide, rfl⟩

/-- Vectors K2 and K19: `QQ==` has its dropped bits zero, `QR==` has not; both decode to `41`. -/
theorem witness_ReencodingIsExactOnCanonicalInput :
    codecDecode [0x51#8, 0x51#8, 0x3D#8, 0x3D#8] = .ok [0x41#8] ∧ droppedBitsZero [0x51#8, 0x51#8, 0x3D#8, 0x3D#8] = true ∧
    codecDecode [0x51#8, 0x52#8, 0x3D#8, 0x3D#8] = .ok [0x41#8] ∧ droppedBitsZero [0x51#8, 0x52#8, 0x3D#8, 0x3D#8] = false :=
  ⟨rfl, by decide, rfl, by decide⟩

/-- Vector X1: both sides of the equivalence hold somewhere. -/
theorem witness_DecodeReportsTheLeastBadIndex : codecDecode [0x51#8, 0x55#8, 0x21#8, 0x3D#8] = .error 2 := rfl

theorem witness_AccesslessOperationsRunToTheirTransaction :
    (Instr.enclen 0 5).wf = true ∧ Launched (.enclen 0 5) (Tests.launched (.enclen 0 5) []) ∧
    (Instr.reserved3 4 1).wf = true ∧ Launched (.reserved3 4 1) (Tests.launched (.reserved3 4 1) []) := by decide

/-- The second clause, with an act of the host before the take step, and with the take step next. -/
theorem witness_AccesslessOperationsRunToTheirTransaction_response :
    let s := { Tests.idle [] with mode := .done ⟨.ok, 8⟩, loan := some ⟨0, 0⟩, take := true }
    let s' := { s with agenda := [.bindPorts 7 50] }
    Inv s ∧ s.agenda = [] ∧ (∃ t, step s = .next t ∧ t.mode = .idle) ∧
      Inv s' ∧ s'.agenda = .bindPorts 7 50 :: [] ∧ (∃ t, step s' = .next t ∧ t.mode = .done ⟨.ok, 8⟩) :=
  ⟨by decide, rfl, ⟨_, rfl, rfl⟩, by decide, rfl, _, rfl, rfl⟩

theorem witness_EncodeRunsToItsTransaction :
    (Instr.encode 4 2).wf = true ∧ Launched (.encode 4 2) (Tests.launched (.encode 4 2) [0x41#8, 0x42#8]) ∧
      (Tests.launched (.encode 4 2) [0x41#8, 0x42#8]).overlaps 2 4 = false := by decide

/-- Buffers that touch but do not overlap are disjoint; one cell more and they are not. -/
theorem witness_EncodeRunsToItsTransaction_touching :
    (Tests.launched (.encode 4 100) []).overlaps 100 4 = false ∧ (Tests.launched (.encode 4 101) []).overlaps 101 4 = true := by
  decide

theorem witness_DecodeRunsToItsTransaction :
    let s := Tests.launched (.decode 3 4) [0x51#8, 0x55#8, 0x4A#8, 0x44#8]
    (Instr.decode 3 4).wf = true ∧ Launched (.decode 3 4) s ∧ s.overlaps 4 3 = false := by decide

theorem witness_EncodeLeavesTheEncoding :
    let s := Tests.launched (.encode 4 2) [0x41#8, 0x42#8]
    (Instr.encode 4 2).wf = true ∧ Launched (.encode 4 2) s ∧ s.overlaps 2 4 = false ∧ enclen 2 ≤ 4 := by decide

theorem witness_DecodeLeavesTheBytes :
    let s := Tests.launched (.decode 1 4) [0x51#8, 0x51#8, 0x3D#8, 0x3D#8]
    (Instr.decode 1 4).wf = true ∧ Launched (.decode 1 4) s ∧ s.overlaps 4 1 = false ∧ 4 % 4 = 0 ∧
      codecDecode (s.source 4) = .ok [0x41#8] ∧ [0x41#8].length ≤ 1 :=
  ⟨by decide, by decide, by decide, by decide, rfl, by decide⟩

/-- Vector X4: the bad character is in the second group, so the first one's bytes are promised. -/
theorem witness_FailedDecodeKeepsEarlierGroups :
    let S := [0x51#8, 0x55#8, 0x4A#8, 0x44#8, 0x51#8, 0x55#8, 0x21#8, 0x3D#8]
    let s := Tests.launched (.decode 6 8) S
    (Instr.decode 6 8).wf = true ∧ Launched (.decode 6 8) s ∧ s.overlaps 8 6 = false ∧ 8 % 4 = 0 ∧
      codecDecode (s.source 8) = .error 6 ∧ declen 8 (codecPadcount (s.source 8)) ≤ 6 :=
  ⟨by decide, by decide, by decide, by decide, rfl, by decide⟩

/-- Two states whose sources agree and whose destinations are elsewhere. -/
theorem witness_ResponseDependsOnlyOnCommandAndSource :
    let s := Tests.launched (.encode 4 1) [0x41#8]
    let s' := { Tests.launched (.encode 4 1) [0x41#8] with dstBase := 200, observed := [0x00#8] }
    (Instr.encode 4 1).wf = true ∧ Launched (.encode 4 1) s ∧ Launched (.encode 4 1) s' ∧
      disjointOk (.encode 4 1) s = true ∧ disjointOk (.encode 4 1) s' = true ∧ s.source 1 = s'.source 1 := by decide

theorem witness_SourceIsUnchangedThroughout :
    let s := Tests.launched (.encode 4 1) [0x41#8]
    (Instr.encode 4 1).wf = true ∧ Launched (.encode 4 1) s ∧ disjointOk (.encode 4 1) s = true ∧ Inv s ∧
      (∃ t, runSteps 2 s = .next t) ∧ 0 < (Instr.encode 4 1).srcLen :=
  ⟨by decide, by decide, by decide, by decide, ⟨_, rfl⟩, by decide⟩
end

section
/-! PROOFS. The accept step (R21), said once: the mode, the loan and the accesses of every command, and the state an idle
unit out of reset is left in by it. -/

namespace Sys2Proof.Machine

/-- The buffers lent with a command (T-HOST; none with ENCLEN and the reserved code, assumption 9). -/
def acceptLoan : Instr → Loan
  | .enclen _ _ => ⟨0, 0⟩
  | .encode cap n => ⟨n, cap⟩
  | .decode cap m => ⟨m, cap⟩
  | .reserved3 _ _ => ⟨0, 0⟩

/-- The mode an idle unit enters on a command, by the order of checks of R163 (R101, R111, R132, R165). -/
def acceptMode (s : State) : Instr → Mode
  | .enclen _ n => .done ⟨.ok, enclen n⟩
  | .encode cap n =>
    if cap < enclen n then .done ⟨.precondition, causeCapacity⟩
    else if n = 0 then .done ⟨.ok, 0⟩
    else .run { op := .encode, n := n, cap := cap, p := 0, g := 0 }
  | .decode cap m =>
    if m % 4 ≠ 0 then .done ⟨.precondition, causeLength⟩
    else if m = 0 then .done ⟨.ok, 0⟩
    else if cap < declen m (padcount (s.srcCell (m - 1)) (s.srcCell (m - 2))) then
      .done ⟨.precondition, causeCapacity⟩
    else .run { op := .decode, n := m, cap := cap, p := padcount (s.srcCell (m - 1)) (s.srcCell (m - 2)), g := 0 }
  | .reserved3 _ _ => .done ⟨.illegalOp, 0⟩

/-! What the checks decide, one equation for each outcome (R111, R132). -/

section
variable (s : State) {cap n : Nat}

theorem acceptMode_encode_small (h : cap < enclen n) :
    acceptMode s (.encode cap n) = .done ⟨.precondition, causeCapacity⟩ := if_pos h

theorem acceptMode_encode_empty (cap : Nat) : acceptMode s (.encode cap 0) = .done ⟨.ok, 0⟩ := by
  simp [acceptMode, enclen]

theorem acceptMode_encode_run (h : enclen n ≤ cap) (hn : n ≠ 0) :
    acceptMode s (.encode cap n) = .run { op := .encode, n := n, cap := cap, p := 0, g := 0 } :=
  (if_neg (Nat.not_lt.2 h)).trans (if_neg hn)

theorem acceptMode_decode_ragged (h : n % 4 ≠ 0) :
    acceptMode s (.decode cap n) = .done ⟨.precondition, causeLength⟩ := if_pos h

theorem acceptMode_decode_empty (cap : Nat) : acceptMode s (.decode cap 0) = .done ⟨.ok, 0⟩ := by
  simp [acceptMode]

theorem acceptMode_decode_small (h : n % 4 = 0) (hn : n ≠ 0)
    (hcap : cap < declen n (padcount (s.srcCell (n - 1)) (s.srcCell (n - 2)))) :
    acceptMode s (.decode cap n) = .done ⟨.precondition, causeCapacity⟩ := by
  simp [acceptMode, h, hn, hcap]

theorem acceptMode_decode_run (h : n % 4 = 0) (hn : n ≠ 0)
    (hcap : declen n (padcount (s.srcCell (n - 1)) (s.srcCell (n - 2))) ≤ cap) :
    acceptMode s (.decode cap n) = .run {
      op := .decode, n := n, cap := cap, p := padcount (s.srcCell (n - 1)) (s.srcCell (n - 2)), g := 0 } := by
  simp [acceptMode, h, hn, Nat.not_lt.2 hcap]

end

/-- The accesses of an accept step: a DECODE with whole groups reads its last two characters (R131, R132). -/
def acceptBus (s : State) : Instr → List Access
  | .decode _ m =>
    if m % 4 ≠ 0 then [] else if m = 0 then []
    else [.srcRead (m - 1) (s.srcCell (m - 1)), .srcRead (m - 2) (s.srcCell (m - 2))]
  | _ => []

/-- The state an idle unit is left in by the accept step of a command. -/
def State.accepted (s : State) (i : Instr) : State :=
  { s with
    mode := acceptMode s i, cmd := none, loan := some (acceptLoan i), bus := acceptBus s i
    spoiled := s.overlaps (acceptLoan i).srcLen (acceptLoan i).dstCap }

/-- The accept step of every command, from an idle unit out of reset. -/
theorem exec_of_unitIdle {s : State} (h : UnitIdle s) (i : Instr) : exec i s = .next (s.accepted i) := by
  obtain ⟨hm, hr⟩ := h
  cases i with
  | enclen cap n => exact congrArg Host.Outcome.next (State.accept_idle hm hr ..)
  | reserved3 cap n => exact congrArg Host.Outcome.next (State.accept_idle hm hr ..)
  | encode cap n =>
    refine congrArg Host.Outcome.next ((State.accept_idle hm hr ..).trans ?_)
    simp only [State.accepted, acceptMode]
    split
    · rfl
    · split <;> rfl
  | decode cap m =>
    refine congrArg Host.Outcome.next ((State.accept_idle hm hr ..).trans ?_)
    simp only [State.accepted, acceptMode, acceptBus]
    split
    · rfl
    · split
      · rfl
      · exact acceptDecode_eq ..

/-- No command is accepted outside `IDLE` or while `rst` is asserted (R190, R196). -/
theorem exec_of_not_unitIdle {s : State} (h : ¬ UnitIdle s) (i : Instr) : exec i s = .next s := by
  have hk : ∀ l k, s.accept l k = s := fun l k =>
    (State.accept_cases s l k).resolve_right fun hacc => h ⟨hacc.1, hacc.2.1⟩
  cases i <;> exact congrArg Host.Outcome.next (hk _ _)

/-- A command without buffers is never accepted with overlapping ones. -/
theorem State.overlaps_zero (s : State) : s.overlaps 0 0 = false := rfl

/-- Settles O12: the unit either accepts nothing or is left in the accepted state, which has the memory and the ports of
the state before. -/
theorem acceptStepsLendBuffersAndChangeNoCell : Obligations.AcceptStepsLendBuffersAndChangeNoCell := by
  intro i s
  by_cases h : UnitIdle s
  · refine ⟨s.accepted i, exec_of_unitIdle h i, rfl, fun a => rfl, fun _ => ⟨rfl, ?_⟩⟩
    cases i <;> exact ⟨rfl, rfl⟩
  · exact ⟨s, exec_of_not_unitIdle h i, rfl, fun a => rfl, fun h' => absurd h' h⟩

end Sys2Proof.Machine
end

section
/-! PROOFS. Command words: every word is the word of a well-formed command (R70 to R72), and the word offered to an idle unit
is the one its next step executes (R20, R21). -/

namespace Sys2Proof.Machine

/-- A word decodes to the command its code and fields say (R71, R72). -/
theorem decodeWord_encodeWord {i : Instr} (h : i.wf = true) : decodeWord (encodeWord i) = i := by
  obtain ⟨hop, hcap, hlen⟩ := Laws.WordFields.of_wf i h
  unfold decodeWord
  rw [hop, hcap, hlen]
  cases i <;> rfl

/-- Both fields of a decoded command fit, whatever the word (R72). -/
theorem wf_decodeWord (w : CmdWord) : (decodeWord w).wf = true := by
  have hcap := CmdWord.dstCap_lt w
  have hlen := CmdWord.srcLen_lt w
  unfold decodeWord
  split_ifs <;> simp [Instr.wf, Instr.capFits, Instr.lenFits, Instr.dstCap, Instr.srcLen, hcap, hlen]

/-- A number comes back from its `k` bytes when it fits them (assumption 4). -/
theorem bitsOfBytes_bytesOfBits (k : Nat) {w : Nat} (h : w < 256 ^ k) : bitsOfBytes (bytesOfBits k w) = w := by
  induction k generalizing w with
  | zero => simp only [Nat.pow_zero] at h; simp [bytesOfBits, bitsOfBytes]; omega
  | succ k ih =>
    have hdiv : w / 256 < 256 ^ k := Nat.div_lt_of_lt_mul (by rwa [Nat.pow_succ, Nat.mul_comm] at h)
    simp only [bytesOfBits, bitsOfBytes, ih hdiv, BitVec.toNat_ofNat]
    omega

theorem bytesOfBits_length (k w : Nat) : (bytesOfBits k w).length = k := by
  induction k generalizing w with
  | zero => rfl
  | succ k ih => simp [bytesOfBits, ih]

/-- The opcode table's bits below `2^66` stand for the command of that word. -/
theorem decodeTableWord_of_lt (nbits : Nat) {w : Nat} (h : w < 2 ^ 66) :
    decodeTableWord nbits w = some (decodeWord (BitVec.ofNat 66 w)) := by
  have hbits : decodeBytes (bytesOfBits 9 w) = .ok (decodeWord (BitVec.ofNat 66 w)) := by
    unfold decodeBytes decodeBits
    rw [if_pos (bytesOfBits_length 9 w), bitsOfBytes_bytesOfBits 9 (by omega), if_pos h]
  unfold decodeTableWord
  rw [if_pos (by omega), hbits]

/-- An idle unit out of reset executes the word it is offered (R20, R21). -/
theorem unitStep_of_offer {s : State} {w : CmdWord} (h : UnitIdle s) (hc : s.cmd = some w) :
    unitStep s = exec (decodeWord w) s := by
  obtain ⟨hm, hr⟩ := h
  simp [unitStep, hm, hr, hc]

/-- An entry `turn` of the agenda gives the unit its step. -/
theorem step_of_turn {s : State} {rest : List HostAct} (ha : s.agenda = .turn :: rest) :
    step s = unitStep { s with agenda := rest } := by
  unfold step advance
  rw [ha]

/-- Settles O6. -/
theorem offeredCommandIsExecuted : Obligations.OfferedCommandIsExecuted := by
  intro s w h hc
  exact ⟨fun ha => (step_of_free ha).trans (unitStep_of_offer h hc),
    fun rest ha => (step_of_turn ha).trans (unitStep_of_offer (s := { s with agenda := rest }) h hc)⟩

/-- Settles O7: the presented state is one of O6, its agenda headed by the unit's turn. -/
theorem presentedBitsAreTheNextCommand : Obligations.PresentedBitsAreTheNextCommand := by
  intro s nbits w hw
  refine ⟨_, decodeTableWord_of_lt nbits hw, wf_decodeWord _, ?_⟩
  exact (offeredCommandIsExecuted (s.withFetchWord nbits w) _ ⟨rfl, rfl⟩ rfl).2 s.agenda rfl

end Sys2Proof.Machine
end

section
/-! PROOFS. Every step keeps the invariant (R15, R16, R18, R160, R161, R190): the canonical memory, the mode with its loan, and
the idle unit under `rst`, for the unit's own steps and for every act of the host. -/

namespace Sys2Proof.Machine

/-! What the invariant says of the mode, in each mode. -/

theorem Context.ok_iff (c : Context) : c.ok = true ↔
    0 < c.n ∧ c.n < 2 ^ 32 ∧ c.cap < 2 ^ 32 ∧ c.g < c.groups ∧
      (c.op = .encode → enclen c.n ≤ c.cap ∧ c.p = 0) ∧
      (c.op = .decode → c.n % 4 = 0 ∧ declen c.n c.p ≤ c.cap) := by
  unfold Context.ok
  cases c.op <;> simp [Config.lenW, and_assoc]

theorem State.modeOk_idle {s : State} (hm : s.mode = .idle) :
    s.modeOk = true ↔ s.loan = none ∧ s.spoiled = false := by
  simp [State.modeOk, hm]

theorem State.modeOk_run {s : State} {c : Context} (hm : s.mode = .run c) :
    s.modeOk = true ↔ c.ok = true ∧ s.loan = some ⟨c.n, c.cap⟩ := by
  simp [State.modeOk, hm]

theorem State.modeOk_done {s : State} {r : Response} (hm : s.mode = .done r) :
    s.modeOk = true ↔ r.ok s.lentSrc = true ∧ s.loan.isSome = true ∧ (s.spoiled = true → s.hasBuffers = true) := by
  simp only [State.modeOk, hm, Bool.and_eq_true, Bool.or_eq_true, Bool.not_eq_true', and_assoc]
  cases s.spoiled <;> simp

/-! Responses that are legal for whatever was lent (R160, R161). -/

theorem Response.ok_of_ok {v : Nat} (n : Nat) (h : v < 2 ^ 33) : Response.ok ⟨.ok, v⟩ n = true := by
  simp [Response.ok, h]

theorem Response.ok_of_invalidChar {v n : Nat} (h : v < 2 ^ 33) (hn : v < n) :
    Response.ok ⟨.invalidChar, v⟩ n = true := by
  simp [Response.ok, h, hn]

/-- The encoded length of every `LEN_W`-bit length fits `VAL_W` bits (R103). -/
theorem enclen_lt {n : Nat} (h : n < 2 ^ 32) : enclen n < 2 ^ 33 := by unfold enclen; omega

theorem declen_lt {m : Nat} (p : Nat) (h : m < 2 ^ 32) : declen m p < 2 ^ 33 := by unfold declen; omega

/-- An operation that was lent some cell has a buffer a breach can reach. -/
theorem State.hasBuffers_of_loan {s : State} {l : Loan} (hl : s.loan = some l) (h : 0 < l.srcLen ∨ 0 < l.dstCap) :
    s.hasBuffers = true := by
  rwa [State.hasBuffers_iff, State.lentSrc_some hl, State.lentDst_some hl]

/-! The accept step. -/

/-- An operation lent nothing is not spoiled by its accept step; one that is spoiled has buffers (R199). -/
theorem State.accepted_hasBuffers (s : State) (i : Instr) (h : (s.accepted i).spoiled = true) :
    (s.accepted i).hasBuffers = true :=
  State.hasBuffers_of_overlaps (l := acceptLoan i) rfl h

/-- An accept step that answers at once answers legally; one that enters `RUN` starts a legal context. -/
theorem State.accepted_modeOk (s : State) {i : Instr} (hw : i.wf = true) : (s.accepted i).modeOk = true := by
  have hdone : ∀ r : Response, acceptMode s i = .done r → r.ok (acceptLoan i).srcLen = true →
      (s.accepted i).modeOk = true := fun r hm hr =>
    (State.modeOk_done hm).2 ⟨hr, rfl, s.accepted_hasBuffers i⟩
  have hrun : ∀ c : Context, acceptMode s i = .run c → acceptLoan i = ⟨c.n, c.cap⟩ → c.ok = true →
      (s.accepted i).modeOk = true := fun c hm hl hc =>
    (State.modeOk_run hm).2 ⟨hc, congrArg some hl⟩
  simp only [Instr.wf, Instr.capFits, Instr.lenFits, Bool.and_eq_true, decide_eq_true_eq] at hw
  obtain ⟨hcap, hlen⟩ := hw
  cases i with
  | enclen cap n => exact hdone _ rfl (Response.ok_of_ok _ (enclen_lt hlen))
  | reserved3 cap n => exact hdone _ rfl rfl
  | encode cap n =>
    rcases Nat.lt_or_ge cap (enclen n) with h1 | h1
    · exact hdone _ (acceptMode_encode_small s h1) rfl
    · rcases Nat.eq_zero_or_pos n with rfl | h2
      · exact hdone _ (acceptMode_encode_empty s cap) rfl
      · refine hrun _ (acceptMode_encode_run s h1 (Nat.ne_of_gt h2)) rfl ((Context.ok_iff _).2 ?_)
        have hleft : 0 < (n + 2) / 3 := by omega
        exact ⟨h2, hlen, hcap, hleft, fun _ => ⟨h1, rfl⟩, nofun⟩
  | decode cap m =>
    rcases eq_or_ne (m % 4) 0 with h1 | h1
    · rcases Nat.eq_zero_or_pos m with rfl | h2
      · exact hdone _ (acceptMode_decode_empty s cap) rfl
      · rcases Nat.lt_or_ge cap (declen m (padcount (s.srcCell (m - 1)) (s.srcCell (m - 2)))) with h3 | h3
        · exact hdone _ (acceptMode_decode_small s h1 (Nat.ne_of_gt h2) h3) rfl
        · refine hrun _ (acceptMode_decode_run s h1 (Nat.ne_of_gt h2) h3) rfl ((Context.ok_iff _).2 ?_)
          have hleft : 0 < m / 4 := by omega
          exact ⟨h2, hlen, hcap, hleft, nofun, fun _ => ⟨h1, h3⟩⟩
    · exact hdone _ (acceptMode_decode_ragged s h1) rfl

theorem exec_keeps_inv {i : Instr} {s t : State} (hw : i.wf = true) (hi : Inv s) (h : exec i s = .next t) : Inv t := by
  by_cases hidle : UnitIdle s
  · rw [exec_of_unitIdle hidle] at h
    injection h with h
    subst h
    exact ⟨hi.1, s.accepted_modeOk hw, fun hr => absurd hr (Bool.eq_false_iff.1 hidle.2)⟩
  · rw [exec_of_not_unitIdle hidle] at h
    injection h with h
    exact h ▸ hi

/-! The group step. -/

/-- The mode after a group's writes: `OK` after the last group, the next group else (R22). -/
def Context.nextMode (c : Context) (v : Nat) : Mode :=
  if c.g + 1 = c.groups then .done ⟨.ok, v⟩ else .run { c with g := c.g + 1 }

/-- A group is left after one that was not the last, and nothing else of the context changes (R16 to R18). -/
theorem Context.ok_next {c : Context} (h : c.ok = true) (hg : c.g + 1 ≠ c.groups) :
    Context.ok { c with g := c.g + 1 } = true := by
  obtain ⟨hn, hn', hcap, hlt, he, hd⟩ := (Context.ok_iff c).1 h
  exact (Context.ok_iff _).2 ⟨hn, hn', hcap, Nat.lt_of_le_of_ne hlt hg, he, hd⟩

/-- A legal context stays consistent with its loan when its group ends, whatever the marks. -/
theorem State.modeOk_nextMode {t : State} {c : Context} {v : Nat} (hc : c.ok = true) (hl : t.loan = some ⟨c.n, c.cap⟩)
    (hm : t.mode = c.nextMode v) (hv : v < 2 ^ 33) : t.modeOk = true := by
  have hn := ((Context.ok_iff c).1 hc).1
  unfold Context.nextMode at hm
  split at hm
  · refine (State.modeOk_done hm).2 ⟨Response.ok_of_ok _ hv, by rw [hl]; rfl,
      fun _ => State.hasBuffers_of_loan hl (.inl hn)⟩
  · rename_i hg
    exact (State.modeOk_run hm).2 ⟨Context.ok_next hc hg, hl⟩

theorem groupStep_keeps_inv {c : Context} {s t : State} (hi : Inv s) (hr : s.rst = false) (hm : s.mode = .run c)
    (h : groupStep c s = .next t) : Inv t := by
  obtain ⟨hwf, hmode, _⟩ := hi
  obtain ⟨hc, hl⟩ := (State.modeOk_run hm).1 hmode
  obtain ⟨hn, hn32, _, _, _, hd⟩ := (Context.ok_iff c).1 hc
  have hrst : s.rst ≠ true := Bool.eq_false_iff.1 hr
  obtain ⟨hg, ⟨k, v, vs, _, _, _, rfl, _, rfl⟩ | ⟨vs, _, _, _, rfl⟩ | ⟨k, ho, hk, rfl⟩⟩ := groupStep_cases h
  · exact ⟨Memory.wf_writeAll _ hwf _, State.modeOk_nextMode hc hl rfl (by decide), fun h' => absurd h' hrst⟩
  · exact ⟨Memory.wf_writeAll _ hwf _, State.modeOk_nextMode hc hl rfl (declen_lt _ hn32), fun h' => absurd h' hrst⟩
  · have hlast : 4 * c.g + k < c.n := by
      rw [Context.groups_decode ho, decodeGroups] at hg
      omega
    have hbad : Response.ok ⟨.invalidChar, 4 * c.g + k⟩ s.lentSrc = true :=
      Response.ok_of_invalidChar (by omega) (by rwa [State.lentSrc_some hl])
    exact ⟨Memory.wf_writeAll _ hwf _, (State.modeOk_done rfl).2 ⟨hbad, by rw [hl]; rfl,
      fun _ => State.hasBuffers_of_loan hl (.inl hn)⟩, fun h' => absurd h' hrst⟩

/-! The take step and the unit's own step. -/

theorem takeResponse_keeps_inv {s : State} (hi : Inv s) (r : Response) : Inv (s.takeResponse r) := by
  refine ⟨?_, (State.modeOk_idle rfl).2 ⟨rfl, rfl⟩, fun _ => rfl⟩
  cases hs : s.spoiled with
  | false => rw [State.takeResponse_unspoiled hs]; exact hi.1
  | true => rw [State.takeResponse_spoiled hs]; exact Memory.wf_writeAll _ hi.1 _

theorem unitStep_keeps_inv {s t : State} (hi : Inv s) (h : unitStep s = .next t) : Inv t := by
  rcases unitStep_cases h with ⟨_, rfl⟩ | ⟨_, _, _, rfl⟩ | ⟨w, _, _, _, he⟩ | ⟨c, hr, hm, hg⟩ | ⟨r, _, _, _, rfl⟩ |
    ⟨_, _, _, _, rfl⟩
  · exact hi
  · exact hi
  · exact exec_keeps_inv (wf_decodeWord w) hi he
  · exact groupStep_keeps_inv hi hr hm hg
  · exact takeResponse_keeps_inv hi r
  · exact hi

/-! The acts of the host. -/

theorem hostAct_keeps_inv {s : State} (hi : Inv s) (act : HostAct) : Inv (s.hostAct act) := by
  obtain ⟨hwf, hmode, hrst⟩ := hi
  cases act with
  | offer w => exact ⟨hwf, hmode, hrst⟩
  | takeReady ready => exact ⟨hwf, hmode, hrst⟩
  | rst asserted =>
    cases asserted with
    | false => exact ⟨hwf, hmode, fun h => by cases h⟩
    | true => exact ⟨Memory.wf_writeAll _ hwf _, (State.modeOk_idle rfl).2 ⟨rfl, rfl⟩, fun _ => rfl⟩
  | poke a v =>
    exact ⟨Memory.wf_write hwf a v, State.modeOk_of_sameLoan hmode rfl rfl (s.poke_spoils a v), hrst⟩
  | peek a =>
    show Inv (s.peek a)
    unfold State.peek
    split <;> exact ⟨hwf, hmode, hrst⟩
  | bindPorts src dst =>
    exact ⟨Memory.wf_writeAll _ hwf _, State.modeOk_of_sameLoan hmode rfl rfl (s.bindTo_spoils src dst), hrst⟩
  | turn => exact ⟨hwf, hmode, hrst⟩
  | wait => exact ⟨hwf, hmode, hrst⟩

/-! The obligations. -/

/-- Settles O31. -/
theorem resetSatisfiesTheInvariants : Obligations.ResetSatisfiesTheInvariants :=
  ⟨⟨List.Pairwise.nil, (State.modeOk_idle rfl).2 ⟨rfl, rfl⟩, fun _ => rfl⟩, trivial⟩

/-- Settles O32, by whose step it is: the unit's (accept, group, take, or none) or the host's. No clause reads the agenda or
the bus. -/
theorem stepKeepsTheInvariant : Obligations.StepKeepsTheInvariant := by
  intro s t hi h
  rcases step_cases h with ⟨_, hu⟩ | ⟨rest, _, hu⟩ | ⟨_, _, _, hu⟩ | ⟨rest, _, _, rfl⟩ | ⟨act, rest, _, _, _, rfl⟩
  · exact unitStep_keeps_inv hi hu
  · exact unitStep_keeps_inv (s := { s with agenda := rest }) hi hu
  · exact unitStep_keeps_inv hi hu
  · exact hi
  · exact hostAct_keeps_inv (s := { s.quiet with agenda := rest }) hi act

end Sys2Proof.Machine
end

section
/-! PROOFS. The context in `RUN`: a group step changes only `C_G` (R16 to R18), and `C_P` stays the pad count of the source,
which the unit does not write and the host can change only by a breach (R17, R42, R197). -/

namespace Sys2Proof.Machine

/-! The group step and the context. -/

/-- Settles O19: of the outcomes of a group step only the one that goes on is left. -/
theorem groupStepsKeepTheContext : Obligations.GroupStepsKeepTheContext := by
  intro s t c c' hturn hm h hrun
  have hnext : ∀ v, c.nextMode v = .run c' → c' = { c with g := c.g + 1 } := fun v h => by
    unfold Context.nextMode at h
    split at h
    · cases h
    · injection h with h
      exact h.symm
  rw [step_of_run hturn hm] at h
  obtain ⟨_, ⟨k, v, vs, _, _, _, _, _, rfl⟩ | ⟨vs, _, _, _, rfl⟩ | ⟨k, _, _, rfl⟩⟩ := groupStep_cases h
  · exact hnext v hrun
  · exact hnext _ hrun
  · cases hrun

/-- The bytes of a DECODE group that is not the last stay below the capacity that was checked (R43, R132). -/
theorem Context.group_inside {c : Context} (hc : c.ok = true) (ho : c.op = .decode) (hg : c.g + 1 < c.groups) :
    3 * c.g + 3 ≤ c.cap := by
  obtain ⟨_, _, _, _, _, hd⟩ := (Context.ok_iff c).1 hc
  have hcap := (hd ho).2
  have hp := c.p.isLt
  rw [Context.groups_decode ho, decodeGroups] at hg
  unfold declen at hcap
  omega

/-! What `PadCountHolds` asks, by the mode. -/

theorem padCountHolds_run {s : State} {c : Context} (hm : s.mode = .run c) : PadCountHolds s ↔
    (c.op = .decode → s.spoiled = false →
      s.overlaps c.n c.cap = false ∧ c.p = padcount (s.srcCell (c.n - 1)) (s.srcCell (c.n - 2))) := by
  unfold PadCountHolds
  rw [hm]

theorem padCountHolds_of_not_run {s : State} (h : ∀ c, s.mode ≠ .run c) : PadCountHolds s := by
  unfold PadCountHolds
  split
  · rename_i c hm
    exact absurd hm (h c)
  · trivial

theorem padCountHolds_of_spoiled {s : State} (h : s.spoiled = true) : PadCountHolds s := by
  unfold PadCountHolds
  split
  · exact fun _ h' => absurd (h.symm.trans h') (by decide)
  · trivial

/-- What keeps the bindings, the context up to `C_G` and, short of a breach, the source, keeps the pad count. -/
theorem padCountHolds_transfer {s t : State} {c : Context} {g : Nat} (hp : PadCountHolds s) (hm : s.mode = .run c)
    (hm' : t.mode = .run { c with g := g }) (hn : 0 < c.n) (hsrc : t.srcBase = s.srcBase) (hdst : t.dstBase = s.dstBase)
    (hkeep : c.op = .decode → t.spoiled = false →
      s.spoiled = false ∧ (s.overlaps c.n c.cap = false → ∀ i < c.n, t.srcCell i = s.srcCell i)) :
    PadCountHolds t := by
  refine (padCountHolds_run hm').2 fun ho hs => ?_
  obtain ⟨hs', hcells⟩ := hkeep ho hs
  obtain ⟨hov, hpad⟩ := (padCountHolds_run hm).1 hp ho hs'
  refine ⟨by rw [State.overlaps, hsrc, hdst]; exact hov, ?_⟩
  show c.p = padcount (t.srcCell (c.n - 1)) (t.srcCell (c.n - 2))
  rw [hcells hov _ (by omega), hcells hov _ (by omega), hpad]

/-! The unit's steps. -/

theorem exec_keeps_padCount {i : Instr} {s t : State} (hp : PadCountHolds s) (h : exec i s = .next t) :
    PadCountHolds t := by
  by_cases hidle : UnitIdle s
  · rw [exec_of_unitIdle hidle] at h
    injection h with h
    subst h
    cases hm : acceptMode s i with
    | idle => exact padCountHolds_of_not_run fun c e => by cases hm.symm.trans e
    | done r => exact padCountHolds_of_not_run fun c e => by cases hm.symm.trans e
    | run c =>
      refine (padCountHolds_run hm).2 fun ho hs => ?_
      cases i with
      | enclen cap n => cases hm
      | reserved3 cap n => cases hm
      | encode cap n =>
        simp only [acceptMode] at hm
        split_ifs at hm
        injection hm with hm
        subst hm
        cases ho
      | decode cap m =>
        simp only [acceptMode] at hm
        split_ifs at hm
        injection hm with hm
        subst hm
        exact ⟨hs, rfl⟩
  · rw [exec_of_not_unitIdle hidle] at h
    injection h with h
    exact h ▸ hp

theorem groupStep_keeps_padCount {c : Context} {s t : State} (hi : Inv s) (hp : PadCountHolds s) (hm : s.mode = .run c)
    (h : groupStep c s = .next t) : PadCountHolds t := by
  obtain ⟨_, hmode, _⟩ := hi
  obtain ⟨hc, _⟩ := (State.modeOk_run hm).1 hmode
  obtain ⟨hn, _⟩ := (Context.ok_iff c).1 hc
  obtain ⟨hg, ⟨k, v, vs, ho, _, _, _, _, rfl⟩ | ⟨vs, ho, hlen, _, rfl⟩ | ⟨k, _, _, rfl⟩⟩ := groupStep_cases h
  · by_cases hlast : c.g + 1 = c.groups
    · exact padCountHolds_of_not_run fun c' e => by cases (if_pos hlast).symm.trans e
    · exact padCountHolds_transfer hp hm (if_neg hlast) hn rfl rfl fun ho' => by cases ho.symm.trans ho'
  · by_cases hlast : c.g + 1 = c.groups
    · exact padCountHolds_of_not_run fun c' e => by cases (if_pos hlast).symm.trans e
    · have hin := Context.group_inside hc ho (by omega)
      exact padCountHolds_transfer hp hm (if_neg hlast) hn rfl rfl fun _ hs =>
        ⟨hs, fun hov => srcCell_of_writeAll hov rfl rfl (by omega)⟩
  · exact padCountHolds_of_not_run fun c' e => by cases e

theorem unitStep_keeps_padCount {s t : State} (hi : Inv s) (hp : PadCountHolds s) (h : unitStep s = .next t) :
    PadCountHolds t := by
  rcases unitStep_cases h with ⟨_, rfl⟩ | ⟨_, _, _, rfl⟩ | ⟨w, _, _, _, he⟩ | ⟨c, _, hm, hg⟩ | ⟨r, _, _, _, rfl⟩ |
    ⟨_, _, _, _, rfl⟩
  · exact hp
  · exact hp
  · exact exec_keeps_padCount hp he
  · exact groupStep_keeps_padCount hi hp hm hg
  · exact padCountHolds_of_not_run fun c e => by cases e
  · exact hp

/-! The acts of the host. -/

/-- An unspoiled write of the host leaves the lent source as it is (R197). -/
theorem State.srcCell_poke {s : State} {a : Nat} {v : Byte} (hs : (s.poke a v).spoiled = false) :
    s.spoiled = false ∧ ∀ i < s.lentSrc, (s.poke a v).srcCell i = s.srcCell i := by
  simp only [State.poke_spoiled, Bool.or_eq_false_iff] at hs
  obtain ⟨⟨hs, hsrc⟩, _⟩ := hs
  refine ⟨hs, fun i hi => State.cell_congr (Memory.read_write_other _ _ fun (e : s.srcBase + i = a) => ?_)⟩
  rw [(inWindow_iff _ _ _).2 ⟨by omega, by omega⟩] at hsrc
  cases hsrc

theorem hostAct_keeps_padCount {s : State} (hi : Inv s) (hp : PadCountHolds s) (act : HostAct) :
    PadCountHolds (s.hostAct act) := by
  cases act with
  | offer w => exact hp
  | takeReady ready => exact hp
  | rst asserted =>
    cases asserted with
    | false => exact hp
    | true => exact padCountHolds_of_not_run fun c e => by cases e
  | poke a v =>
    by_cases hrun : ∃ c, s.mode = .run c
    · obtain ⟨c, hm⟩ := hrun
      obtain ⟨hn, _, hl, _, _⟩ := Inv.run hi hm
      refine padCountHolds_transfer (s := s) (g := c.g) hp hm hm hn rfl rfl fun _ hs => ?_
      obtain ⟨hs', hcells⟩ := State.srcCell_poke hs
      rw [State.lentSrc_some hl] at hcells
      exact ⟨hs', fun _ => hcells⟩
    · exact padCountHolds_of_not_run fun c e => hrun ⟨c, e⟩
  | peek a =>
    show PadCountHolds (s.peek a)
    unfold State.peek
    split <;> exact hp
  | bindPorts src dst =>
    by_cases hrun : ∃ c, s.mode = .run c
    · obtain ⟨c, hm⟩ := hrun
      obtain ⟨hn, _, hl, _, _⟩ := Inv.run hi hm
      exact padCountHolds_of_spoiled (Bool.or_eq_true_iff.2 (.inr (State.hasBuffers_of_loan hl (.inl hn))))
    · exact padCountHolds_of_not_run fun c e => hrun ⟨c, e⟩
  | turn => exact hp
  | wait => exact hp

/-- Settles O33, by whose step it is. -/
theorem stepKeepsThePadCount : Obligations.StepKeepsThePadCount := by
  intro s t hi hp h
  rcases step_cases h with ⟨_, hu⟩ | ⟨rest, _, hu⟩ | ⟨_, _, _, hu⟩ | ⟨rest, _, _, rfl⟩ | ⟨act, rest, _, _, _, rfl⟩
  · exact unitStep_keeps_padCount hi hp hu
  · exact unitStep_keeps_padCount (s := { s with agenda := rest }) hi hp hu
  · exact unitStep_keeps_padCount hi hp hu
  · exact hp
  · exact hostAct_keeps_padCount (s := { s.quiet with agenda := rest }) hi hp act

end Sys2Proof.Machine
end

section
/-! PROOFS. The take step, the reset state and the ports between operations (R23, R26, R169, R193, R200), and the operations
without buffers, whose response no act of the host but `rst` changes (R12, R101, R165). -/

namespace Sys2Proof.Machine

/-- Settles O21. -/
theorem takeStepReturnsTheResponse : Obligations.TakeStepReturnsTheResponse := by
  intro s r hturn hm ht hs
  rw [step_of_done hturn hm ht, State.takeResponse_unspoiled hs, hs]

/-- Settles O24. -/
theorem resetStateIsIdle : Obligations.ResetStateIsIdle := ⟨rfl, rfl, rfl⟩

/-- After a breach the outcome of the take step does not depend on the response at all (R197, R199). -/
theorem State.takeResponse_of_spoiled {s : State} (h : s.spoiled = true) (m : Mode) (r r' : Response) :
    State.takeResponse { s with mode := m } r' = s.takeResponse r := by
  rw [State.takeResponse_spoiled h, State.takeResponse_spoiled (s := { s with mode := m }) h]
  rfl

/-- Settles O23: with no breach each host has received its own word; after a breach both machines are in one state. -/
theorem takeForgetsTheResponse : Obligations.TakeForgetsTheResponse := by
  intro s r r' hturn hm ht
  have hstep := step_of_done hturn hm ht
  have hstep' : step { s with mode := .done r' } = _ := step_of_done hturn rfl ht
  rcases Bool.eq_false_or_eq_true s.spoiled with hs | hs
  · rw [State.takeResponse_of_spoiled hs _ r] at hstep'
    have hw : (s.takeResponse r).received = s.received ++ [Config.freeRspWord (s.draws + s.lentDst)] :=
      congrArg State.received (State.takeResponse_spoiled hs r)
    generalize s.takeResponse r = t at hstep hstep' hw
    exact ⟨t, t, _, _, hstep, hstep', hw, hw, fun _ _ => rfl, rfl, fun h => absurd (hs.symm.trans h) (by decide)⟩
  · rw [State.takeResponse_unspoiled hs] at hstep
    rw [State.takeResponse_unspoiled (s := { s with mode := .done r' }) hs] at hstep'
    exact ⟨_, _, _, _, hstep, hstep', rfl, rfl, fun _ _ => State.cell_congr rfl, rfl, fun _ => ⟨rfl, rfl, rfl⟩⟩

/-! Operations without buffers. -/

/-- With no operation in flight, or with one that was lent no cell, there is no buffer a breach can reach. -/
theorem State.hasBuffers_of_nothingLent {s : State} (h : s.loan = none ∨ s.loan = some ⟨0, 0⟩) :
    s.hasBuffers = false := by
  rcases h with h | h
  · simp [State.hasBuffers, h]
  · simp [State.hasBuffers, State.lentSrc_some h, State.lentDst_some h]

theorem State.lent_of_noBuffers {s : State} (h : s.hasBuffers = false) : s.lentSrc = 0 ∧ s.lentDst = 0 := by
  simpa [State.hasBuffers] using h

/-- Binding the ports with nothing lent changes the bindings only (R193, R200). -/
theorem State.bindTo_of_noBuffers {s : State} (h : s.hasBuffers = false) (src dst : Nat) :
    s.bindTo src dst = { s with srcBase := src, dstBase := dst } := by
  obtain ⟨_, hdst⟩ := State.lent_of_noBuffers h
  rw [State.bindTo, hdst, State.anyDst_empty _ _ _ (Nat.le_refl 0), h, Bool.or_false]

/-- Binding the ports under an operation that has buffers spoils it (assumption 7). -/
theorem State.bindTo_of_hasBuffers {s : State} (h : s.hasBuffers = true) (src dst : Nat) :
    s.bindTo src dst = { s.anyDst 0 s.lentDst with srcBase := src, dstBase := dst, spoiled := true } := by
  rw [State.bindTo, h, Bool.or_true]

/-- What makes the lent destination cells `any` leaves every other cell alone. -/
theorem State.cell_anyDst_lent (s : State) {a : Nat} (h : inWindow s.dstBase s.lentDst a = false) :
    (s.anyDst 0 s.lentDst).cell a = s.cell a := by
  refine s.cell_anyDst_outside 0 _ ?_
  by_contra hin
  rw [(inWindow_iff _ _ _).2 ⟨by omega, by omega⟩] at h
  cases h

/-- Settles O29: the entry of the agenda is the act `bindTo`, which depends on whether some cell is lent. -/
theorem portsRebindBetweenOperations : Obligations.PortsRebindBetweenOperations := by
  intro s src dst rest ha
  have hstep : step s = .next (State.bindTo { s.quiet with agenda := rest } src dst) := step_of_act ha nofun nofun
  refine ⟨fun hl => ?_, fun l hl hpos => ⟨_, hstep, ?_⟩⟩
  · exact hstep.trans (congrArg _ (State.bindTo_of_noBuffers (s := { s.quiet with agenda := rest })
      (State.hasBuffers_of_nothingLent hl) src dst))
  · have he := State.bindTo_of_hasBuffers (s := { s.quiet with agenda := rest }) (State.hasBuffers_of_loan hl hpos)
      src dst
    rw [← State.lentDst_some hl]
    exact ⟨congrArg State.spoiled he, fun a hout => State.cell_anyDst_lent { s.quiet with agenda := rest } hout, he⟩

/-! The response of an operation without buffers. -/

/-- The response `r` of an operation without buffers is still pending in `t`, unspoiled and with nothing more received. -/
def ResponseKept (s t : State) (r : Response) : Prop :=
  t.mode = .done r ∧ t.loan = some ⟨0, 0⟩ ∧ t.spoiled = false ∧ t.received = s.received

/-- The host has taken the response `r`, as it is. -/
def ResponseGiven (s t : State) (r : Response) : Prop := t.mode = .idle ∧ t.received = s.received ++ [r.word]

section
variable {s : State} {r : Response} (hm : s.mode = .done r) (hl : s.loan = some ⟨0, 0⟩) (hs : s.spoiled = false)
include hm hl hs

/-- The unit's own step in `DONE` is the take step or none. -/
theorem unitStep_keeps_or_gives {t : State} (h : unitStep s = .next t) : ResponseKept s t r ∨ ResponseGiven s t r := by
  rcases unitStep_cases h with ⟨_, rfl⟩ | ⟨_, hm', _, _⟩ | ⟨_, _, hm', _, _⟩ | ⟨_, _, hm', _⟩ | ⟨r', _, hm', _, rfl⟩ |
    ⟨_, _, _, _, rfl⟩
  · exact .inl ⟨hm, hl, hs, rfl⟩
  · cases hm.symm.trans hm'
  · cases hm.symm.trans hm'
  · cases hm.symm.trans hm'
  · cases hm.symm.trans hm'
    rw [State.takeResponse_unspoiled hs]
    exact .inr ⟨rfl, rfl⟩
  · exact .inl ⟨hm, hl, hs, rfl⟩

/-- With no cell lent, no act of the host but the assertion of `rst` is a breach or ends the operation (R12, R101). -/
theorem hostAct_keeps_response {act : HostAct} (ha : act ≠ .rst true) : ResponseKept s (s.hostAct act) r := by
  have hb := State.hasBuffers_of_nothingLent (.inr hl)
  cases act with
  | rst asserted =>
    cases asserted with
    | false => exact ⟨hm, hl, hs, rfl⟩
    | true => exact absurd rfl ha
  | poke a v =>
    refine ⟨hm, hl, ?_, rfl⟩
    rcases s.poke_spoils a v with h | h
    · exact h.trans hs
    · cases hb.symm.trans h
  | peek a =>
    show ResponseKept s (s.peek a) r
    unfold State.peek
    split <;> exact ⟨hm, hl, hs, rfl⟩
  | bindPorts src dst =>
    show ResponseKept s (s.bindTo src dst) r
    rw [State.bindTo_of_noBuffers hb]
    exact ⟨hm, hl, hs, rfl⟩
  | _ => exact ⟨hm, hl, hs, rfl⟩

/-- Every step but the assertion of `rst` leaves the response pending or hands it over. -/
theorem step_keeps_or_gives {t : State} (hr : ∀ rest, s.agenda ≠ .rst true :: rest) (h : step s = .next t) :
    ResponseKept s t r ∨ ResponseGiven s t r := by
  rcases step_cases h with ⟨_, hu⟩ | ⟨rest, _, hu⟩ | ⟨_, _, _, hu⟩ | ⟨rest, _, _, rfl⟩ | ⟨act, rest, ha, _, _, rfl⟩
  · exact unitStep_keeps_or_gives hm hl hs hu
  · exact unitStep_keeps_or_gives (s := { s with agenda := rest }) hm hl hs hu
  · exact unitStep_keeps_or_gives hm hl hs hu
  · exact .inl ⟨hm, hl, hs, rfl⟩
  · exact .inl (hostAct_keeps_response (s := { s.quiet with agenda := rest }) hm hl hs fun e => hr rest (e ▸ ha))

end

end Sys2Proof.Machine
end

section
/-! PROOFS. Whole operations (R24): the accept step of a launched command, the take step that ends it, and what the one
transition `transact` comes to. With them, the operations without buffers run to their transaction. -/

namespace Sys2Proof.Machine

/-- The state `s` after a whole operation (R23, R24): the offer and the readiness are used up, the host has the response. -/
def State.answered (s : State) (r : Response) (mem : Memory) (draws : Nat) : State :=
  { s with cmd := none, take := false, mem := mem, draws := draws, bus := [], received := s.received ++ [r.word] }

/-- The state `s` with its command carried out and the response not yet taken. -/
def State.pending (s : State) (i : Instr) (r : Response) (mem : Memory) (bus : List Access) (draws : Nat) : State :=
  { s.accepted i with mode := .done r, mem := mem, bus := bus, draws := draws }

/-- `transact` on an outcome with no `any` cell. -/
theorem transact_of_result {i : Instr} {s : State} {r : Response} {cells : List Byte}
    (h : resultOf i (s.source i.srcLen) = ⟨r, cells, none⟩) :
    transact i s = s.answered r (Memory.writeAll s.mem s.dstBase cells) s.draws := by
  simp only [transact, h]
  rfl

/-- `transact` on an outcome that leaves the destination `any` from cell `lo` on (R141). -/
theorem transact_of_failure {i : Instr} {s : State} {r : Response} {cells : List Byte} {lo : Nat}
    (h : resultOf i (s.source i.srcLen) = ⟨r, cells, some lo⟩) :
    transact i s = s.answered r
      (Memory.writeAll (Memory.writeAll s.mem s.dstBase cells) (s.dstBase + lo) (freeBytes s.draws (i.dstCap - lo)))
      (s.draws + (i.dstCap - lo)) := by
  simp only [transact, h]
  rfl

/-- Disjoint buffers are those lent with the command, when there are any. -/
theorem overlaps_of_disjointOk {i : Instr} {s : State} (h : disjointOk i s = true) :
    s.overlaps (acceptLoan i).srcLen (acceptLoan i).dstCap = false := by
  cases i with
  | enclen cap n => exact s.overlaps_zero
  | reserved3 cap n => exact s.overlaps_zero
  | encode cap n => exact (Bool.not_eq_true' _).mp h
  | decode cap m => exact (Bool.not_eq_true' _).mp h

section
variable {i : Instr} {s : State} (hw : i.wf = true) (hl : Launched i s) (hd : disjointOk i s = true)
include hw hl

/-- The first step of a launched command is its accept step. -/
theorem step_of_launched : step s = .next (s.accepted i) := by
  obtain ⟨hidle, hc, _, _, _, ha⟩ := hl
  rw [step_of_free ha, unitStep_of_offer hidle hc, decodeWord_encodeWord hw, exec_of_unitIdle hidle]

omit hw in
/-- After its accept step the unit goes on by itself: no act of the host stands before it. -/
theorem unitsTurn_accepted : UnitsTurn (s.accepted i) := by
  obtain ⟨⟨_, hr⟩, _, _, _, _, ha⟩ := hl
  exact ⟨hr, ha⟩

include hd

/-- Steps from the accepted state to a response make a whole operation, with the accept step before and the take step after
them (10_state.md section 4). -/
theorem runSteps_of_launched {k : Nat} {r : Response} {mem : Memory} {b : List Access} {d : Nat}
    (hrun : runSteps k (s.accepted i) = .next (s.pending i r mem b d)) :
    runSteps (2 + k) s = .next (s.answered r mem d) := by
  have haccept := step_of_launched hw hl
  have hturn : UnitsTurn (s.pending i r mem b d) := unitsTurn_accepted (s := s) hl
  obtain ⟨⟨hm, _⟩, _, ht, hs, hn, _⟩ := hl
  have htake : step (s.pending i r mem b d) = .next (s.answered r mem d) := by
    refine (step_of_done hturn rfl ht).trans (congrArg _ ?_)
    rw [State.takeResponse_unspoiled (overlaps_of_disjointOk hd)]
    simp [State.pending, State.accepted, State.answered, hm, hs, hn]
  rw [show 2 + k = (k + 1) + 1 by omega, runSteps_succ haccept, runSteps_add k 1 hrun, runSteps_succ htake, runSteps_zero]

/-- A command that its accept step answers at once takes two steps, and changes no cell. -/
theorem runSteps_of_answer {r : Response} (hm : acceptMode s i = .done r) :
    runSteps 2 s = .next (s.answered r s.mem s.draws) := by
  refine runSteps_of_launched hw hl hd (k := 0) (b := acceptBus s i) ?_
  rw [runSteps_zero, State.pending, ← hm]
  rfl

/-- Such a command runs to its transaction when the transaction has that response, no cells and no `any`. -/
theorem runs_to_transact_of_answer {r : Response} (hm : acceptMode s i = .done r)
    (hres : resultOf i (s.source i.srcLen) = ⟨r, [], none⟩) :
    runSteps 2 s = .next (transact i s) ∧ (transact i s).mem = s.mem := by
  rw [transact_of_result hres]
  exact ⟨runSteps_of_answer hw hl hd hm, rfl⟩

end

/-- Settles O53: the accept step answers, the take step hands over; and the invariant says that an operation lent no cell is
not spoiled, which every step but the assertion of `rst` keeps. -/
theorem accesslessOperationsRunToTheirTransaction : Obligations.AccesslessOperationsRunToTheirTransaction := by
  refine ⟨fun s i hw hl hi => ?_, fun s t r hinv hm hl hr h => ?_⟩
  · obtain ⟨cap, n, rfl | rfl⟩ := hi
    · exact runs_to_transact_of_answer hw hl rfl rfl rfl
    · exact runs_to_transact_of_answer hw hl rfl rfl rfl
  · obtain ⟨_, hmode, _⟩ := hinv
    obtain ⟨_, _, hspoil⟩ := (State.modeOk_done hm).1 hmode
    rw [State.hasBuffers_of_nothingLent (.inr hl)] at hspoil
    exact step_keeps_or_gives hm hl (Bool.eq_false_iff.2 fun hs => by cases hspoil hs) hr h

end Sys2Proof.Machine
end

section
/-! PROOFS. A whole ENCODE comes to its transaction (R24, R110): each group step writes the symbols of its group, and what is
left to write is the encoding of the source from that group on. -/

namespace Sys2Proof.Machine

/-- The state after an ENCODE group step: the symbols of the group are written (R22, R112 to R114). -/
def State.encoded (s : State) (c : Context) : State :=
  { s with
    mode := c.nextMode 0
    mem := Memory.writeAll s.mem (s.dstBase + 4 * c.g) (encodeSymbols c s).2
    bus := s.groupReads (3 * c.g) (encodeSymbols c s).1 ++ writesFrom (4 * c.g) (encodeSymbols c s).2 }

/-- An ENCODE in `RUN` with a group left, room for its output, disjoint buffers, and no act of the host before it. -/
structure EncodeRun (c : Context) (s : State) : Prop where
  turn : UnitsTurn s
  mode : s.mode = .run c
  op : c.op = .encode
  left : c.g < encodeGroups c.n
  fits : enclen c.n ≤ c.cap
  disjoint : s.overlaps c.n c.cap = false

namespace EncodeRun

variable {c : Context} {s : State}

theorem step_eq (h : EncodeRun c s) : step s = .next (s.encoded c) := by
  rw [step_of_run h.turn h.mode, groupStep_encode s h.op, encodeGroup_next c s h.left, State.encoded, Context.nextMode,
    Context.groups_encode h.op]

/-- After a group that was not the last the next one is in `RUN`. -/
theorem next (h : EncodeRun c s) (hg : c.g + 1 < encodeGroups c.n) :
    EncodeRun { c with g := c.g + 1 } (s.encoded c) :=
  ⟨h.turn, if_neg (by rw [Context.groups_encode h.op]; omega), h.op, hg, h.fits, h.disjoint⟩

/-- The symbols of a group leave the source as it is (R42). -/
theorem source_encoded (h : EncodeRun c s) : (s.encoded c).source c.n = s.source c.n := by
  refine source_congr (srcCell_of_writeAll h.disjoint rfl rfl ?_)
  have hleft := h.left
  have hfits := h.fits
  rw [encodeSymbols_length]
  unfold enclen at hfits
  unfold encodeGroups at hleft
  omega

/-- The `k + 1` groups left take `k + 1` steps and write the encoding of the rest of the source (R18, R110). -/
theorem reaches_done {k : Nat} (h : EncodeRun c s) (hk : c.g + (k + 1) = encodeGroups c.n) :
    ∃ b, runSteps (k + 1) s = .next { s with
      mode := .done ⟨.ok, 0⟩
      mem := Memory.writeAll s.mem (s.dstBase + 4 * c.g) (codecEncode ((s.source c.n).drop (3 * c.g)))
      bus := b } := by
  induction k generalizing c s with
  | zero =>
    have hmode : (s.encoded c).mode = .done ⟨.ok, 0⟩ := if_pos (by rw [Context.groups_encode h.op]; exact hk)
    have hnil : (s.source c.n).drop (3 * (c.g + 1)) = [] := source_drop_nil (by unfold encodeGroups at hk; omega)
    rw [runSteps_succ h.step_eq, runSteps_zero, codecEncode_drop h.left, hnil, codecEncode, List.append_nil, ← hmode]
    exact ⟨_, rfl⟩
  | succ k ih =>
    obtain ⟨b, hrest⟩ := ih (h.next (by omega)) (by show c.g + 1 + (k + 1) = encodeGroups c.n; omega)
    refine ⟨b, (runSteps_succ h.step_eq _).trans (hrest.trans ?_)⟩
    rw [codecEncode_drop h.left, Memory.writeAll_append, encodeSymbols_length, Nat.add_assoc, ← Nat.mul_succ,
      ← h.source_encoded]
    rfl

end EncodeRun

/-- A launched ENCODE that passes the checks enters `RUN` at group 0 (R111). -/
theorem encodeRun_of_launched {s : State} {cap n : Nat} (hl : Launched (.encode cap n) s)
    (hov : s.overlaps n cap = false) (hcap : enclen n ≤ cap) (hn : 0 < n) :
    EncodeRun { op := .encode, n := n, cap := cap, p := 0, g := 0 } (s.accepted (.encode cap n)) where
  turn := unitsTurn_accepted hl
  mode := acceptMode_encode_run s hcap (Nat.ne_of_gt hn)
  op := rfl
  left := by show 0 < (n + 2) / 3; omega
  fits := hcap
  disjoint := hov

/-- Settles O54: the checks of the accept step answer at once; else the group steps write the whole encoding from group 0. -/
theorem encodeRunsToItsTransaction : Obligations.EncodeRunsToItsTransaction := by
  intro s cap n hw hl hov
  have hd : disjointOk (.encode cap n) s = true := (Bool.not_eq_true' _).mpr hov
  rcases Nat.lt_or_ge cap (enclen n) with hcap | hcap
  · rw [show unitSteps (.encode cap n) (s.source n) = 2 from if_pos hcap]
    exact (runs_to_transact_of_answer hw hl hd (acceptMode_encode_small s hcap) (if_pos hcap)).1
  · have hcap' := Nat.not_lt.2 hcap
    have hres : resultOf (.encode cap n) (s.source n) = ⟨⟨.ok, 0⟩, codecEncode (s.source n), none⟩ := if_neg hcap'
    rw [show unitSteps (.encode cap n) (s.source n) = 2 + encodeGroups n from if_neg hcap']
    rcases Nat.eq_zero_or_pos n with rfl | hn
    · exact (runs_to_transact_of_answer hw hl hd (acceptMode_encode_empty s cap) hres).1
    · obtain ⟨k, hk⟩ : ∃ k, encodeGroups n = k + 1 := ⟨encodeGroups n - 1, by unfold encodeGroups; omega⟩
      have hrun := encodeRun_of_launched hl hov hcap hn
      obtain ⟨b, hsteps⟩ := hrun.reaches_done ((Nat.zero_add _).trans hk.symm)
      rw [transact_of_result hres, hk]
      exact runSteps_of_launched hw hl hd hsteps

end Sys2Proof.Machine
end

section
/-! PROOFS. A whole DECODE comes to its transaction (R24, R130, R141): the machine's positions are the indices of the source,
so a group is accepted exactly when the codec finds no bad index in it, and what the groups before a bad one write are the
bytes of that part of the source. -/

namespace Sys2Proof.Machine

/-! The codec. -/

/-- A source that decodes has no bad index, and its bytes are those of its groups (R130). -/
theorem codecDecode_ok {S B : List Byte} (h : codecDecode S = .ok B) :
    (∀ j < S.length, codecBad S j = false) ∧ B = bytesOfGroups S := by
  unfold codecDecode at h
  split at h
  · cases h
  · rename_i hnone
    injection h with h
    exact ⟨by simpa [firstBad] using hnone, h.symm⟩

/-- The index reported is bad and no index before it is (R130, R137). -/
theorem codecDecode_error {S : List Byte} {k : Nat} (h : codecDecode S = .error k) :
    k < S.length ∧ codecBad S k = true ∧ ∀ j < k, codecBad S j = false := by
  unfold codecDecode at h
  split at h
  · rename_i i hsome
    injection h with h
    subst h
    have hs := List.find?_range_eq_some.1 hsome
    simpa [and_assoc, and_comm, and_left_comm] using hs
  · cases h

/-- The bytes of whole groups followed by one more group (R130). -/
theorem bytesOfGroups_append_group (S : List Byte) (hS : S.length % 4 = 0) (c0 c1 c2 c3 : Byte) :
    bytesOfGroups (S ++ [c0, c1, c2, c3]) = bytesOfGroups S ++ bytesOfFields (dec c0) (dec c1) (dec c2) (dec c3) := by
  induction S using bytesOfGroups.induct with
  | case1 a0 a1 a2 a3 rest ih =>
    simp only [List.length_cons] at hS
    simp only [List.cons_append, bytesOfGroups, ih (by omega), List.append_assoc]
  | case2 S hshort =>
    match S, hS, hshort with
    | [], _, _ => simp [bytesOfGroups]
    | a0 :: a1 :: a2 :: a3 :: rest, _, hshort => exact absurd rfl (hshort a0 a1 a2 a3 rest)

/-- The first `k + 1` groups of a source are the first `k` and the four characters of group `k`. -/
theorem source_take_group (s : State) {n k : Nat} (h : 4 * k + 4 ≤ n) :
    (s.source n).take (4 * (k + 1)) = (s.source n).take (4 * k) ++
      [s.srcCell (4 * k), s.srcCell (4 * k + 1), s.srcCell (4 * k + 2), s.srcCell (4 * k + 3)] := by
  have hdrop : ((s.source n).drop (4 * k)).take 4 =
      [s.srcCell (4 * k), s.srcCell (4 * k + 1), s.srcCell (4 * k + 2), s.srcCell (4 * k + 3)] := by
    rw [source_drop (by omega), source_drop (i := 4 * k + 1) (by omega), source_drop (i := 4 * k + 1 + 1) (by omega),
      source_drop (i := 4 * k + 1 + 1 + 1) (by omega)]
    rfl
  rw [Nat.mul_succ, List.take_add, hdrop]

/-- At most three bytes for each group (R130). -/
theorem bytesOfFields_length_le (e0 e1 e2 e3 : DecEntry) : (bytesOfFields e0 e1 e2 e3).length ≤ 3 := by
  unfold bytesOfFields
  split <;> simp

theorem bytesOfGroups_length_le (S : List Byte) : (bytesOfGroups S).length ≤ 3 * (S.length / 4) := by
  induction S using bytesOfGroups.induct with
  | case1 a0 a1 a2 a3 rest ih =>
    have hgroup := bytesOfFields_length_le (dec a0) (dec a1) (dec a2) (dec a3)
    simp only [bytesOfGroups, List.length_append, List.length_cons]
    omega
  | case2 S hshort =>
    unfold bytesOfGroups
    split
    · exact absurd rfl (hshort _ _ _ _ _)
    · exact Nat.zero_le _

/-! The pad count (R131). -/

theorem dec_padChar : dec padChar = .pad := by decide

theorem padcount_of_first {c1 c2 : Byte} (h : dec c1 ≠ .pad) : padcount c1 c2 = 0 :=
  if_pos fun e : c1 = padChar => h (e ▸ dec_padChar)

theorem padcount_of_second {c1 c2 : Byte} (h : dec c2 ≠ .pad) : (padcount c1 c2).val ≤ 1 := by
  have hne : c2 ≠ padChar := fun e => h (e ▸ dec_padChar)
  unfold padcount
  rw [if_pos hne]
  split <;> decide

/-- A DECODE in `RUN` with a group left, whole groups, room for its output, disjoint buffers, `C_P` the pad count of its
source, and no act of the host before it. -/
structure DecodeRun (c : Context) (s : State) : Prop where
  turn : UnitsTurn s
  mode : s.mode = .run c
  op : c.op = .decode
  left : c.g < decodeGroups c.n
  whole : c.n % 4 = 0
  fits : declen c.n c.p ≤ c.cap
  disjoint : s.overlaps c.n c.cap = false
  pads : c.p = padcount (s.srcCell (c.n - 1)) (s.srcCell (c.n - 2))

/-- Group `C_G` of the source holds no bad index. -/
def GroupGood (c : Context) (s : State) : Prop := ∀ i < 4, codecBad (s.source c.n) (4 * c.g + i) = false

/-- The bytes of group `C_G` of the source (R130). -/
def sourceGroupBytes (c : Context) (s : State) : List Byte :=
  bytesOfFields (dec (s.srcCell (4 * c.g))) (dec (s.srcCell (4 * c.g + 1))) (dec (s.srcCell (4 * c.g + 2)))
    (dec (s.srcCell (4 * c.g + 3)))

/-- The state after a DECODE group step on a good group: its bytes are written (R22, R138). -/
def State.decoded (s : State) (c : Context) : State :=
  { s with
    mode := c.nextMode (declen c.n c.p)
    mem := Memory.writeAll s.mem (s.dstBase + 3 * c.g) (sourceGroupBytes c s)
    bus := s.groupReads (4 * c.g) 4 ++ writesFrom (3 * c.g) (sourceGroupBytes c s) }

namespace DecodeRun

variable {c : Context} {s : State} (h : DecodeRun c s)
include h

theorem group_inside : 4 * c.g + 4 ≤ c.n := by
  have hleft := h.left
  unfold decodeGroups at hleft
  omega

/-! Positions and indices. -/

/-- A position is accepted exactly when its index is not bad (R130, R134 to R136). -/
theorem fieldAt_isSome_eq {i : Nat} (hi : i < 4) :
    (fieldAt c s i).isSome = !codecBad (s.source c.n) (4 * c.g + i) := by
  have hg := h.group_inside
  have hpads : codecPadcount (s.source c.n) = c.p.val := by rw [codecPadcount_source s (by omega), ← h.pads]
  rw [fieldAt_isSome, codecBad, source_getD s (by omega), source_length, hpads]
  cases hdec : dec (s.srcCell (4 * c.g + i)) with
  | sextet v => simp [positionOk, hdec]
  | inv => simp [positionOk, hdec]
  | pad =>
    have hwhole := h.whole
    have hp := c.p.isLt
    simp only [positionOk, hdec]
    rw [Bool.eq_iff_iff, padLegal_iff, Bool.not_eq_true', decide_eq_false_iff_not]
    omega

theorem outcome_of_good (hgood : GroupGood c s) : ∃ f0 f1 f2 f3, groupOutcome c s = .fields f0 f1 f2 f3 := by
  have hsome : ∀ i < 4, (fieldAt c s i).isSome = true := fun i hi => by rw [h.fieldAt_isSome_eq hi, hgood i hi]; rfl
  cases hG : groupOutcome c s with
  | fields f0 f1 f2 f3 => exact ⟨f0, f1, f2, f3, rfl⟩
  | bad k =>
    obtain ⟨hk, _, hnone | ⟨hlow, hpad⟩⟩ := groupOutcome_bad hG
    · have := hsome k hk
      rw [hnone] at this
      cases this
    · exact absurd hpad (fieldAt_low hlow)

/-! The last two characters and the pad count. -/

theorem pads_eq_zero (hlast : c.g + 1 = c.n / 4) (hd : dec (s.srcCell (4 * c.g + 3)) ≠ .pad) : c.p = 0 := by
  have hwhole := h.whole
  rw [h.pads, show c.n - 1 = 4 * c.g + 3 by omega]
  exact padcount_of_first hd

theorem pads_le_one (hlast : c.g + 1 = c.n / 4) (hd : dec (s.srcCell (4 * c.g + 2)) ≠ .pad) : c.p.val ≤ 1 := by
  have hwhole := h.whole
  rw [h.pads, show c.n - 2 = 4 * c.g + 2 by omega]
  exact padcount_of_second hd

/-- A character that is no pad finds room for its byte (R43, R132). -/
theorem room (i : Nat) (hi : i ≤ 2) (hp : c.g + 1 = c.n / 4 → c.p.val + i ≤ 2) : 3 * c.g + i < c.cap := by
  have hleft := h.left
  have hfits := h.fits
  have := c.p.isLt
  unfold decodeGroups at hleft
  unfold declen at hfits
  by_cases hlast : c.g + 1 = c.n / 4
  · have := hp hlast
    omega
  · omega

/-- The bytes a good group writes are those of its characters: none is lost to the capacity, and no pad stands before a
sextet (R138). -/
theorem groupBytes_eq {f0 f1 : Sextet} {f2 f3 : Field} (hG : groupOutcome c s = .fields f0 f1 f2 f3) :
    groupBytes c f0 f1 f2 f3 = sourceGroupBytes c s := by
  obtain ⟨h0, h1, h2, h3⟩ := groupOutcome_fields hG
  have hd0 : dec (s.srcCell (4 * c.g)) = .sextet f0 := by
    rcases fieldAt_some h0 with ⟨v, hv, hd⟩ | ⟨hv, _⟩ <;> cases hv
    exact hd
  have hd1 : dec (s.srcCell (4 * c.g + 1)) = .sextet f1 := by
    rcases fieldAt_some h1 with ⟨v, hv, hd⟩ | ⟨hv, _⟩ <;> cases hv
    exact hd
  unfold sourceGroupBytes
  rw [hd0, hd1]
  rcases fieldAt_some h2 with ⟨v2, rfl, hd2⟩ | ⟨rfl, hd2, hlast, hp2⟩
  · have hroom1 := h.room 1 (by omega) fun hlast => by
      have := h.pads_le_one hlast (by rw [hd2]; nofun)
      omega
    rcases fieldAt_some h3 with ⟨v3, rfl, hd3⟩ | ⟨rfl, hd3, _, _⟩
    · have hroom2 := h.room 2 (by omega) fun hlast => by
        rw [h.pads_eq_zero hlast (by rw [hd3]; nofun)]
        decide
      rw [hd2, hd3, groupBytes, if_pos hroom2, bytesOfFields]
    · rw [hd2, hd3, groupBytes, if_pos hroom1, bytesOfFields]
  · rcases fieldAt_some h3 with ⟨v3, rfl, hd3⟩ | ⟨rfl, hd3, _, _⟩
    · rw [h.pads_eq_zero hlast (by rw [hd3]; nofun)] at hp2
      simp at hp2
    · rw [hd2, hd3, groupBytes, bytesOfFields]

/-! The group step. -/

theorem step_of_good (hgood : GroupGood c s) : step s = .next (s.decoded c) := by
  obtain ⟨f0, f1, f2, f3, hG⟩ := h.outcome_of_good hgood
  rw [step_of_run h.turn h.mode, groupStep_decode s h.op, decodeGroup_next c s h.left, hG, groupResult,
    h.groupBytes_eq hG, State.decoded, Context.nextMode, Context.groups_decode h.op]

/-- A group with a first bad position ends the operation there (R134, R136, R137, R141). -/
theorem step_of_bad {k : Nat} (hk : k < 4) (hgood : ∀ j < k, codecBad (s.source c.n) (4 * c.g + j) = false)
    (hbad : codecBad (s.source c.n) (4 * c.g + k) = true) : step s = .next (groupResult c s (.bad k)) := by
  have hG : groupOutcome c s = .bad k := groupOutcome_of_bad hk
    (fun j hj => by rw [h.fieldAt_isSome_eq (by omega), hgood j hj]; rfl)
    (by rw [h.fieldAt_isSome_eq hk, hbad]; rfl)
  rw [step_of_run h.turn h.mode, groupStep_decode s h.op, decodeGroup_next c s h.left, hG]

/-- A good group that is not the last holds no pad (R135). -/
theorem dec_of_middle (hgood : GroupGood c s) (hg : c.g + 1 < decodeGroups c.n) {i : Nat} (hi : i < 4) :
    ∃ v, dec (s.srcCell (4 * c.g + i)) = .sextet v := by
  have hsome : (fieldAt c s i).isSome = true := by rw [h.fieldAt_isSome_eq hi, hgood i hi]; rfl
  obtain ⟨f, hf⟩ := Option.isSome_iff_exists.1 hsome
  rcases fieldAt_some hf with ⟨v, _, hv⟩ | ⟨_, _, hlast, _⟩
  · exact ⟨v, hv⟩
  · unfold decodeGroups at hg
    omega

/-- So it has three bytes (R138). -/
theorem sourceGroupBytes_length (hgood : GroupGood c s) (hg : c.g + 1 < decodeGroups c.n) :
    (sourceGroupBytes c s).length = 3 := by
  obtain ⟨v0, h0⟩ := h.dec_of_middle hgood hg (i := 0) (by omega)
  obtain ⟨v1, h1⟩ := h.dec_of_middle hgood hg (i := 1) (by omega)
  obtain ⟨v2, h2⟩ := h.dec_of_middle hgood hg (i := 2) (by omega)
  obtain ⟨v3, h3⟩ := h.dec_of_middle hgood hg (i := 3) (by omega)
  rw [Nat.add_zero] at h0
  rw [sourceGroupBytes, h0, h1, h2, h3]
  rfl

end DecodeRun

/-! The groups before the last one, or before a bad one. -/

/-- Two states with one source have the same characters in every group. -/
theorem sourceGroupBytes_congr {c : Context} {s t : State} (h : ∀ i < c.n, t.srcCell i = s.srcCell i)
    (hg : 4 * c.g + 4 ≤ c.n) : sourceGroupBytes c t = sourceGroupBytes c s := by
  unfold sourceGroupBytes
  rw [h _ (by omega), h _ (by omega), h _ (by omega), h _ (by omega)]

/-- The bytes of the groups before `k`. -/
def bytesBefore (s : State) (n k : Nat) : List Byte := bytesOfGroups ((s.source n).take (4 * k))

theorem bytesBefore_succ (s : State) (c : Context) (hg : 4 * c.g + 4 ≤ c.n) :
    bytesBefore s c.n (c.g + 1) = bytesBefore s c.n c.g ++ sourceGroupBytes c s := by
  unfold bytesBefore
  rw [source_take_group s hg, bytesOfGroups_append_group]
  · rfl
  · rw [List.length_take, source_length]
    omega

/-- The state in which the groups before `k` have been written, and group `k` is next. -/
def State.atGroup (s : State) (c : Context) (k : Nat) (b : List Access) : State :=
  { s with mode := .run { c with g := k }, mem := Memory.writeAll s.mem s.dstBase (bytesBefore s c.n k), bus := b }

/-- The group step at group `k` writes what is missing from the bytes of the groups before `k + 1`. -/
theorem State.decoded_atGroup {s : State} {c : Context} {k : Nat} {b : List Access}
    (hcells : ∀ i < c.n, (s.atGroup c k b).srcCell i = s.srcCell i) (hlen : (bytesBefore s c.n k).length = 3 * k)
    (hg : 4 * k + 4 ≤ c.n) :
    ∃ b', (s.atGroup c k b).decoded { c with g := k } = { s with
      mode := Context.nextMode { c with g := k } (declen c.n c.p)
      mem := Memory.writeAll s.mem s.dstBase (bytesBefore s c.n (k + 1))
      bus := b' } := by
  have hbytes := sourceGroupBytes_congr (c := { c with g := k }) hcells hg
  have hmem : Memory.writeAll s.mem s.dstBase (bytesBefore s c.n (k + 1)) =
      Memory.writeAll (Memory.writeAll s.mem s.dstBase (bytesBefore s c.n k)) (s.dstBase + 3 * k)
        (sourceGroupBytes { c with g := k } s) := by
    rw [bytesBefore_succ s { c with g := k } hg, Memory.writeAll_append, hlen]
  rw [hmem, ← hbytes]
  exact ⟨_, rfl⟩

namespace DecodeRun

variable {c : Context} {s : State} (h : DecodeRun c s)
include h

section
variable {k : Nat} (hk : k < decodeGroups c.n) (hlen : (bytesBefore s c.n k).length = 3 * k) (b : List Access)
include hk hlen

/-- The bytes of the groups before `k` leave the source as it is (R42). -/
theorem srcCell_atGroup : ∀ i < c.n, (s.atGroup c k b).srcCell i = s.srcCell i := by
  have hfits := h.fits
  have hp := c.p.isLt
  refine srcCell_of_writeAll (j := 0) h.disjoint rfl rfl ?_
  unfold decodeGroups at hk
  unfold declen at hfits
  omega

/-- The operation is in `RUN` at group `k`, with the same source. -/
theorem run_atGroup : DecodeRun { c with g := k } (s.atGroup c k b) where
  turn := h.turn
  mode := rfl
  op := h.op
  left := hk
  whole := h.whole
  fits := h.fits
  disjoint := h.disjoint
  pads := by
    have hg := h.group_inside
    have hcells := h.srcCell_atGroup hk hlen b
    show c.p = padcount ((s.atGroup c k b).srcCell (c.n - 1)) ((s.atGroup c k b).srcCell (c.n - 2))
    rw [hcells _ (by omega), hcells _ (by omega), h.pads]

/-- With no bad index up to its end, group `k` is a good group. -/
theorem good_atGroup (hgood : ∀ j < 4 * (k + 1), codecBad (s.source c.n) j = false) :
    GroupGood { c with g := k } (s.atGroup c k b) := fun i hi => by
  show codecBad ((s.atGroup c k b).source c.n) (4 * k + i) = false
  rw [source_congr (h.srcCell_atGroup hk hlen b)]
  exact hgood _ (by omega)

/-- Group `k`, when it is good, is written behind the groups before it (R138). -/
theorem step_atGroup (hgood : ∀ j < 4 * (k + 1), codecBad (s.source c.n) j = false) :
    ∃ b', step (s.atGroup c k b) = .next { s with
      mode := Context.nextMode { c with g := k } (declen c.n c.p)
      mem := Memory.writeAll s.mem s.dstBase (bytesBefore s c.n (k + 1))
      bus := b' } := by
  have hrun := h.run_atGroup hk hlen b
  obtain ⟨b', hdecoded⟩ := State.decoded_atGroup (h.srcCell_atGroup hk hlen b) hlen hrun.group_inside
  exact ⟨b', (hrun.step_of_good (h.good_atGroup hk hlen b hgood)).trans (congrArg _ hdecoded)⟩

end

/-- While no index before group `k` is bad, `k` steps write three bytes for each group. -/
theorem reaches_group (hfirst : c.g = 0) {k : Nat} (hk : k < decodeGroups c.n)
    (hgood : ∀ j < 4 * k, codecBad (s.source c.n) j = false) :
    (bytesBefore s c.n k).length = 3 * k ∧ ∃ b, runSteps k s = .next (s.atGroup c k b) := by
  induction k with
  | zero =>
    refine ⟨rfl, s.bus, ?_⟩
    have hmode : s.mode = .run { c with g := 0 } := by rw [← hfirst]; exact h.mode
    rw [runSteps_zero, State.atGroup, ← hmode]
    rfl
  | succ k ih =>
    have hk' : k < decodeGroups c.n := Nat.lt_of_succ_lt hk
    obtain ⟨hlen, b, hsteps⟩ := ih hk' fun j hj => hgood j (by omega)
    obtain ⟨b', hstep⟩ := h.step_atGroup hk' hlen b hgood
    have hrun := h.run_atGroup hk' hlen b
    have hbytes : (sourceGroupBytes { c with g := k } s).length = 3 := by
      rw [← sourceGroupBytes_congr (c := { c with g := k }) (h.srcCell_atGroup hk' hlen b) hrun.group_inside]
      exact hrun.sourceGroupBytes_length (h.good_atGroup hk' hlen b hgood) hk
    have hmode : Context.nextMode { c with g := k } (declen c.n c.p) = .run { c with g := k + 1 } :=
      if_neg (by rw [Context.groups_decode (c := { c with g := k }) h.op]; exact Nat.ne_of_lt hk)
    refine ⟨?_, b', ?_⟩
    · rw [bytesBefore_succ s { c with g := k } hrun.group_inside, List.length_append, hlen, hbytes, Nat.mul_succ]
    · rw [runSteps_add k 1 hsteps, runSteps_succ hstep, runSteps_zero, hmode]
      rfl

/-- A source without a bad index is decoded in as many steps as it has groups (R130, R143). -/
theorem reaches_ok (hfirst : c.g = 0) (hgood : ∀ j < c.n, codecBad (s.source c.n) j = false) :
    ∃ b, runSteps (decodeGroups c.n) s = .next { s with
      mode := .done ⟨.ok, declen c.n c.p⟩
      mem := Memory.writeAll s.mem s.dstBase (bytesOfGroups (s.source c.n))
      bus := b } := by
  obtain ⟨k, hk⟩ : ∃ k, decodeGroups c.n = k + 1 := ⟨decodeGroups c.n - 1, by have := h.left; omega⟩
  have hwhole : c.n = 4 * (k + 1) := by
    have := h.whole
    unfold decodeGroups at hk
    omega
  obtain ⟨hlen, b, hsteps⟩ := h.reaches_group hfirst (k := k) (by omega) fun j hj => hgood j (by omega)
  obtain ⟨b', hstep⟩ := h.step_atGroup (by omega) hlen b fun j hj => hgood j (by omega)
  have hmode : Context.nextMode { c with g := k } (declen c.n c.p) = .done ⟨.ok, declen c.n c.p⟩ :=
    if_pos (by rw [Context.groups_decode (c := { c with g := k }) h.op]; exact hk.symm)
  have hall : bytesBefore s c.n (k + 1) = bytesOfGroups (s.source c.n) :=
    congrArg bytesOfGroups (List.take_of_length_le (by rw [source_length]; omega))
  rw [hmode, hall] at hstep
  rw [hk, runSteps_add k 1 hsteps, runSteps_succ hstep]
  exact ⟨b', rfl⟩

/-- A source whose first bad index is `k` fails in the step of its group, after the groups before it (R137, R141). -/
theorem reaches_invalid (hfirst : c.g = 0) {k : Nat} (hk : k < c.n) (hbad : codecBad (s.source c.n) k = true)
    (hgood : ∀ j < k, codecBad (s.source c.n) j = false) :
    ∃ b, runSteps (k / 4 + 1) s = .next { s with
      mode := .done ⟨.invalidChar, k⟩
      mem := Memory.writeAll (Memory.writeAll s.mem s.dstBase (bytesBefore s c.n (k / 4))) (s.dstBase + 3 * (k / 4))
        (freeBytes s.draws (c.cap - 3 * (k / 4)))
      bus := b
      draws := s.draws + (c.cap - 3 * (k / 4)) } := by
  have hwhole := h.whole
  have hin : k / 4 < decodeGroups c.n := by unfold decodeGroups; omega
  obtain ⟨hlen, b, hsteps⟩ := h.reaches_group hfirst hin fun j hj => hgood j (by omega)
  have hsource := source_congr (h.srcCell_atGroup hin hlen b)
  have hindex : 4 * (k / 4) + k % 4 = k := Nat.div_add_mod k 4
  have hstep := (h.run_atGroup hin hlen b).step_of_bad (k := k % 4) (Nat.mod_lt k (by decide))
    (fun j hj => by
      show codecBad ((s.atGroup c (k / 4) b).source c.n) (4 * (k / 4) + j) = false
      rw [hsource]
      exact hgood _ (by omega))
    (by
      show codecBad ((s.atGroup c (k / 4) b).source c.n) (4 * (k / 4) + k % 4) = true
      rw [hsource, hindex]
      exact hbad)
  rw [runSteps_add (k / 4) 1 hsteps, runSteps_succ hstep, runSteps_zero, groupResult, hindex]
  exact ⟨_, rfl⟩

end DecodeRun

/-! The outcomes of a DECODE (R163). -/

section
variable {cap m : Nat} {S : List Byte}

theorem resultOf_decode_ragged (h : m % 4 ≠ 0) :
    resultOf (.decode cap m) S = ⟨⟨.precondition, causeLength⟩, [], none⟩ := if_pos h

theorem resultOf_decode_small (h : m % 4 = 0) (hcap : cap < declen m (codecPadcount S)) :
    resultOf (.decode cap m) S = ⟨⟨.precondition, causeCapacity⟩, [], none⟩ := by
  simp [resultOf, h, hcap]

theorem resultOf_decode_ok {B : List Byte} (h : m % 4 = 0) (hcap : declen m (codecPadcount S) ≤ cap)
    (hB : codecDecode S = .ok B) :
    resultOf (.decode cap m) S = ⟨⟨.ok, declen m (codecPadcount S)⟩, B, none⟩ := by
  simp [resultOf, h, Nat.not_lt.2 hcap, hB]

theorem resultOf_decode_error {k : Nat} (h : m % 4 = 0) (hcap : declen m (codecPadcount S) ≤ cap)
    (hk : codecDecode S = .error k) :
    resultOf (.decode cap m) S =
      ⟨⟨.invalidChar, k⟩, bytesOfGroups (S.take (4 * (k / 4))), some (3 * (k / 4))⟩ := by
  simp [resultOf, h, Nat.not_lt.2 hcap, hk]

/-! The steps of a DECODE, by its outcome (10_state.md section 4). -/

theorem unitSteps_decode_ok {v : Nat} {cells : List Byte} {lo : Option Nat}
    (h : resultOf (.decode cap m) S = ⟨⟨.ok, v⟩, cells, lo⟩) : unitSteps (.decode cap m) S = 2 + m / 4 := by
  simp only [unitSteps, h]

theorem unitSteps_decode_invalid {k : Nat} {cells : List Byte} {lo : Option Nat}
    (h : resultOf (.decode cap m) S = ⟨⟨.invalidChar, k⟩, cells, lo⟩) :
    unitSteps (.decode cap m) S = 2 + (k / 4 + 1) := by
  simp only [unitSteps, h]
  rfl

theorem unitSteps_decode_precondition {v : Nat} {cells : List Byte} {lo : Option Nat}
    (h : resultOf (.decode cap m) S = ⟨⟨.precondition, v⟩, cells, lo⟩) : unitSteps (.decode cap m) S = 2 := by
  simp only [unitSteps, h]

end

/-- A launched DECODE that passes the checks enters `RUN` at group 0 (R132). -/
theorem decodeRun_of_launched {s : State} {cap m : Nat} (hl : Launched (.decode cap m) s)
    (hov : s.overlaps m cap = false) (hwhole : m % 4 = 0) (hm : 0 < m)
    (hcap : declen m (padcount (s.srcCell (m - 1)) (s.srcCell (m - 2))) ≤ cap) :
    DecodeRun { op := .decode, n := m, cap := cap, p := padcount (s.srcCell (m - 1)) (s.srcCell (m - 2)), g := 0 }
      (s.accepted (.decode cap m)) where
  turn := unitsTurn_accepted hl
  mode := acceptMode_decode_run s hwhole (Nat.ne_of_gt hm) hcap
  op := rfl
  left := by show 0 < m / 4; omega
  whole := hwhole
  fits := hcap
  disjoint := hov
  pads := rfl

/-- Settles O55: the checks of the accept step answer at once; else the groups before the first bad index, or all of them,
are written, and the last step answers. -/
theorem decodeRunsToItsTransaction : Obligations.DecodeRunsToItsTransaction := by
  intro s cap m hw hl hov
  have hd : disjointOk (.decode cap m) s = true := (Bool.not_eq_true' _).mpr hov
  rcases eq_or_ne (m % 4) 0 with hwhole | hragged
  · rcases Nat.eq_zero_or_pos m with rfl | hm
    · have hres : resultOf (.decode cap 0) (s.source 0) = ⟨⟨.ok, 0⟩, [], none⟩ :=
        resultOf_decode_ok rfl (Nat.zero_le _) rfl
      rw [unitSteps_decode_ok hres]
      exact (runs_to_transact_of_answer hw hl hd (acceptMode_decode_empty s cap) hres).1
    · have hpads := codecPadcount_source s hm
      rcases Nat.lt_or_ge cap (declen m (codecPadcount (s.source m))) with hcap | hcap
      · have hres := resultOf_decode_small hwhole hcap
        rw [hpads] at hcap
        rw [unitSteps_decode_precondition hres]
        exact (runs_to_transact_of_answer hw hl hd (acceptMode_decode_small s hwhole (Nat.ne_of_gt hm) hcap) hres).1
      · have hrun := decodeRun_of_launched hl hov hwhole hm (hpads ▸ hcap)
        cases hcodec : codecDecode (s.source m) with
        | ok B =>
          obtain ⟨hgood, rfl⟩ := codecDecode_ok hcodec
          have hres := resultOf_decode_ok hwhole hcap hcodec
          obtain ⟨b, hsteps⟩ := hrun.reaches_ok rfl fun j hj => hgood j (by rwa [source_length])
          rw [unitSteps_decode_ok hres, transact_of_result hres, hpads]
          exact runSteps_of_launched hw hl hd hsteps
        | error k =>
          obtain ⟨hk, hbad, hgood⟩ := codecDecode_error hcodec
          have hres := resultOf_decode_error hwhole hcap hcodec
          obtain ⟨b, hsteps⟩ := hrun.reaches_invalid rfl (by rwa [source_length] at hk) hbad hgood
          rw [unitSteps_decode_invalid hres, transact_of_failure hres]
          exact runSteps_of_launched hw hl hd hsteps
  · have hres := resultOf_decode_ragged (cap := cap) (S := s.source m) hragged
    rw [unitSteps_decode_precondition hres]
    exact (runs_to_transact_of_answer hw hl hd (acceptMode_decode_ragged s hragged) hres).1

end Sys2Proof.Machine
end

section
/-! PROOFS. What a whole operation gives is a function of the command and the source (R12, R42): the transaction is computed
from them, and the machine runs to it. -/

namespace Sys2Proof.Machine

/-- Every launched command with disjoint buffers runs to its transaction (R24). -/
theorem runs_to_transact {i : Instr} {s : State} (hw : i.wf = true) (hl : Launched i s) (hd : disjointOk i s = true) :
    runSteps (unitSteps i (s.source i.srcLen)) s = .next (transact i s) := by
  cases i with
  | enclen cap n => exact (accesslessOperationsRunToTheirTransaction.1 s _ hw hl ⟨cap, n, .inl rfl⟩).1
  | encode cap n => exact encodeRunsToItsTransaction s cap n hw hl (overlaps_of_disjointOk hd)
  | decode cap m => exact decodeRunsToItsTransaction s cap m hw hl (overlaps_of_disjointOk hd)
  | reserved3 cap n => exact (accesslessOperationsRunToTheirTransaction.1 s _ hw hl ⟨cap, n, .inr rfl⟩).1

/-- The transaction keeps the mode and hands over the word of its response. -/
theorem transact_mode (i : Instr) (s : State) : (transact i s).mode = s.mode := by
  simp only [transact]
  split <;> rfl

theorem transact_received (i : Instr) (s : State) :
    (transact i s).received = s.received ++ [(resultOf i (s.source i.srcLen)).rsp.word] := by
  simp only [transact]

/-- The cells that become `any` lie behind those that are determined (R141). -/
theorem cells_length_le_anyFrom {i : Instr} {S : List Byte} {lo : Nat} (h : (resultOf i S).anyFrom = some lo) :
    (resultOf i S).cells.length ≤ lo := by
  cases i with
  | enclen cap n => cases h
  | reserved3 cap n => cases h
  | encode cap n =>
    simp only [resultOf] at h
    split at h <;> cases h
  | decode cap m =>
    rcases eq_or_ne (m % 4) 0 with hwhole | hragged
    · rcases Nat.lt_or_ge cap (declen m (codecPadcount S)) with hcap | hcap
      · rw [resultOf_decode_small hwhole hcap] at h
        cases h
      · cases hcodec : codecDecode S with
        | ok B =>
          rw [resultOf_decode_ok hwhole hcap hcodec] at h
          cases h
        | error k =>
          rw [resultOf_decode_error hwhole hcap hcodec] at h ⊢
          injection h with h
          subst h
          refine (bytesOfGroups_length_le _).trans ?_
          rw [List.length_take]
          omega
    · rw [resultOf_decode_ragged hragged] at h
      cases h

/-- Every destination cell the operation determines holds its byte after the transaction (R54). -/
theorem transact_dstCell {i : Instr} {s : State} {j : Nat} (hj : j < (resultOf i (s.source i.srcLen)).cells.length) :
    (transact i s).dstCell j = (resultOf i (s.source i.srcLen)).cells[j] := by
  have hread := Memory.read_writeAll_inside _ s.mem s.dstBase j hj
  simp only [transact]
  split
  · rename_i lo hlo
    have hle := cells_length_le_anyFrom hlo
    refine (State.cell_anyDst_outside _ lo i.dstCap (.inl ?_)).trans ?_
    · show s.dstBase + j < s.dstBase + lo
      omega
    · exact congrArg (Option.getD · _) hread
  · exact congrArg (Option.getD · _) hread

/-- Settles O59: both machines run to their transaction, and equal sources give equal results. -/
theorem responseDependsOnlyOnCommandAndSource : Obligations.ResponseDependsOnlyOnCommandAndSource := by
  intro s s' i hw hl hl' hd hd' hsource
  have hrun' := runs_to_transact hw hl' hd'
  have hreceived' := transact_received i s'
  rw [← hsource] at hrun' hreceived'
  refine ⟨_, _, _, _, runs_to_transact hw hl hd, hrun', (transact_mode i s).trans hl.1.1,
    (transact_mode i s').trans hl'.1.1, transact_received i s, hreceived', fun j hj => ?_⟩
  rw [transact_dstCell hj, transact_dstCell (hsource ▸ hj)]
  simp only [hsource]

end Sys2Proof.Machine
end

section
/-! PROOFS. The lengths of the codec's results (R100, R104, R130): four characters for each group of an encoding, three bytes
for each group of a decoding, less one for each pad. -/

namespace Sys2Proof.Machine

/-- The encoding has four characters for each group of three bytes, begun or whole (R100). -/
theorem codecEncode_length (B : List Byte) : (codecEncode B).length = enclen B.length := by
  induction B using codecEncode.induct with
  | case1 b0 b1 b2 rest ih =>
    simp only [codecEncode, List.length_append, ih, enclen, fullSymbols, List.length_cons, List.length_nil]
    omega
  | case2 b0 b1 => simp [codecEncode, tailSymbols2, enclen]
  | case3 b0 => simp [codecEncode, tailSymbols1, enclen]
  | case4 => rfl

/-- An index that is not bad holds a sextet, or a pad among the last `padcount` indices (R130). -/
theorem dec_of_not_codecBad {S : List Byte} {j : Nat} (h : codecBad S j = false) :
    (∃ v, dec (S.getD j 0#8) = .sextet v) ∨ (dec (S.getD j 0#8) = .pad ∧ S.length ≤ j + codecPadcount S) := by
  unfold codecBad at h
  split at h
  · rename_i v hv
    exact .inl ⟨v, hv⟩
  · rename_i hpad
    exact .inr ⟨hpad, Nat.not_lt.1 (of_decide_eq_false h)⟩
  · cases h

theorem codecPadcount_le_two (S : List Byte) : codecPadcount S ≤ 2 := by
  unfold codecPadcount
  split
  · exact Nat.zero_le 2
  · exact Nat.le_of_lt_succ (Fin.isLt _)

/-- Whole groups of sextets have three bytes each (R130). -/
theorem bytesOfGroups_length_of_sextets {S : List Byte} (hwhole : S.length % 4 = 0)
    (h : ∀ ch ∈ S, ∃ v, dec ch = .sextet v) : (bytesOfGroups S).length = 3 * (S.length / 4) := by
  induction S using bytesOfGroups.induct with
  | case1 a0 a1 a2 a3 rest ih =>
    simp only [List.length_cons] at hwhole
    obtain ⟨⟨v0, h0⟩, ⟨v1, h1⟩, ⟨v2, h2⟩, ⟨v3, h3⟩, hrest⟩ :
        (∃ v, dec a0 = .sextet v) ∧ (∃ v, dec a1 = .sextet v) ∧ (∃ v, dec a2 = .sextet v) ∧
          (∃ v, dec a3 = .sextet v) ∧ ∀ ch ∈ rest, ∃ v, dec ch = .sextet v := by simpa using h
    simp only [bytesOfGroups, h0, h1, h2, h3, bytesOfFields, List.length_append, List.length_cons, List.length_nil,
      ih (by omega) hrest]
    omega
  | case2 S hshort =>
    match S, hwhole, hshort with
    | [], _, _ => rfl
    | a0 :: a1 :: a2 :: a3 :: rest, _, hshort => exact absurd rfl (hshort a0 a1 a2 a3 rest)

/-- The groups before `k`, with no bad index in them and another group behind them, have three bytes each: no pad stands so
early (R130). -/
theorem bytesOfGroups_take_length {S : List Byte} {k : Nat} (hk : 4 * k + 4 ≤ S.length)
    (hgood : ∀ j < 4 * k, codecBad S j = false) : (bytesOfGroups (S.take (4 * k))).length = 3 * k := by
  have hlen : (S.take (4 * k)).length = 4 * k := by rw [List.length_take]; omega
  have hsextets : ∀ ch ∈ S.take (4 * k), ∃ v, dec ch = .sextet v := fun ch hch => by
    obtain ⟨j, hj, rfl⟩ := List.getElem_of_mem hch
    have hp := codecPadcount_le_two S
    have hdec := dec_of_not_codecBad (hgood j (by omega))
    rw [List.getD_eq_getElem _ _ (by omega : j < S.length)] at hdec
    rw [List.getElem_take]
    exact hdec.resolve_right fun hpad => by omega
  rw [bytesOfGroups_length_of_sextets (by omega) hsextets, hlen]
  omega

/-- The last group of a source without a bad index has three bytes less one for each pad (R130, R131). -/
theorem bytesOfFields_last_length {S : List Byte} {g : Nat} (hlen : S.length = 4 * g + 4)
    (hgood : ∀ j < S.length, codecBad S j = false) :
    (bytesOfFields (dec (S.getD (4 * g) 0#8)) (dec (S.getD (4 * g + 1) 0#8)) (dec (S.getD (4 * g + 2) 0#8))
      (dec (S.getD (4 * g + 3) 0#8))).length = 3 - codecPadcount S := by
  have hp := codecPadcount_le_two S
  have hcount : codecPadcount S = (padcount (S.getD (4 * g + 3) 0#8) (S.getD (4 * g + 2) 0#8)).val := by
    unfold codecPadcount
    rw [if_neg (by omega), hlen]
    rfl
  obtain ⟨v0, h0⟩ := (dec_of_not_codecBad (hgood (4 * g) (by omega))).resolve_right fun hpad => by omega
  obtain ⟨v1, h1⟩ := (dec_of_not_codecBad (hgood (4 * g + 1) (by omega))).resolve_right fun hpad => by omega
  rw [h0, h1]
  rcases dec_of_not_codecBad (hgood (4 * g + 2) (by omega)) with ⟨v2, h2⟩ | ⟨h2, hp2⟩ <;>
    rcases dec_of_not_codecBad (hgood (4 * g + 3) (by omega)) with ⟨v3, h3⟩ | ⟨h3, hp3⟩
  · rw [h2, h3, hcount, padcount_of_first (by rw [h3]; nofun)]
    rfl
  · have hone := padcount_of_second (c1 := S.getD (4 * g + 3) 0#8) (c2 := S.getD (4 * g + 2) 0#8) (by rw [h2]; nofun)
    rw [h2, h3, show codecPadcount S = 1 by omega]
    rfl
  · rw [padcount_of_first (by rw [h3]; nofun)] at hcount
    simp only [Fin.val_zero] at hcount
    omega
  · rw [h2, h3, show codecPadcount S = 2 by omega]
    rfl

/-- A source of whole groups without a bad index has `declen` bytes (R104, R130). -/
theorem bytesOfGroups_length {S : List Byte} (hwhole : S.length % 4 = 0)
    (hgood : ∀ j < S.length, codecBad S j = false) : (bytesOfGroups S).length = declen S.length (codecPadcount S) := by
  rcases Nat.eq_zero_or_pos S.length with hnil | hpos
  · rw [List.length_eq_zero_iff.1 hnil]
    rfl
  · obtain ⟨g, hlen⟩ : ∃ g, S.length = 4 * g + 4 := ⟨S.length / 4 - 1, by omega⟩
    have hsplit : S = S.take (4 * g) ++
        [S.getD (4 * g) 0#8, S.getD (4 * g + 1) 0#8, S.getD (4 * g + 2) 0#8, S.getD (4 * g + 3) 0#8] := by
      refine List.ext_getElem (by simp [hlen]) fun j hj hj' => ?_
      rcases Nat.lt_or_ge j (4 * g) with hlt | hge
      · rw [List.getElem_append_left (by simp; omega), List.getElem_take]
      · obtain ⟨i, rfl⟩ := Nat.exists_eq_add_of_le hge
        rw [List.getElem_append_right (by simp)]
        have hi : i < 4 := by omega
        interval_cases i <;> simp [hlen]
    have hbytes := congrArg (List.length ∘ bytesOfGroups) hsplit
    simp only [Function.comp_apply] at hbytes
    rw [bytesOfGroups_append_group _ (by rw [List.length_take]; omega), List.length_append,
      bytesOfGroups_take_length (by omega) fun j hj => hgood j (by omega), bytesOfFields_last_length hlen hgood] at hbytes
    have hp := codecPadcount_le_two S
    rw [hbytes, declen]
    omega

end Sys2Proof.Machine
end

section
/-! PROOFS. What a whole operation leaves in memory (R54): the cells its result determines, and every cell behind the
transaction it runs to (R24) that the result does not reach. -/

namespace Sys2Proof.Machine

theorem inWindow_eq_false_iff (base n a : Nat) : inWindow base n a = false ↔ a < base ∨ base + n ≤ a := by
  rw [← Bool.not_eq_true, inWindow_iff]
  omega

/-- Only the cells it determines and those it makes `any` change in the transaction (R54, R141). -/
theorem transact_cell_outside {i : Instr} {s : State} {n a : Nat}
    (hcells : (resultOf i (s.source i.srcLen)).cells.length ≤ n)
    (hany : (resultOf i (s.source i.srcLen)).anyFrom ≠ none → i.dstCap ≤ n) (ha : inWindow s.dstBase n a = false) :
    (transact i s).cell a = s.cell a := by
  have hout := (inWindow_eq_false_iff _ _ _).1 ha
  have hwritten : (Memory.read (Memory.writeAll s.mem s.dstBase (resultOf i (s.source i.srcLen)).cells) a) =
      Memory.read s.mem a := Memory.read_writeAll_outside _ _ (by omega)
  simp only [transact]
  split
  · rename_i lo hlo
    have hcap := hany (by rw [hlo]; nofun)
    refine (State.cell_anyDst_outside _ lo i.dstCap ?_).trans (State.cell_congr hwritten)
    show a < s.dstBase + lo ∨ s.dstBase + lo + (i.dstCap - lo) ≤ a
    omega
  · exact State.cell_congr hwritten

/-- What a launched command with disjoint buffers leaves (R24, R54): the response word with the host, the cells of its result
in the destination, and every cell outside the first `n` of the destination as before, when its result stays inside them. -/
theorem launched_leaves {i : Instr} {s : State} {k : Nat} {r : Response} {cells : List Byte} {lo : Option Nat} (n : Nat)
    (hw : i.wf = true) (hl : Launched i s) (hd : disjointOk i s = true)
    (hres : resultOf i (s.source i.srcLen) = ⟨r, cells, lo⟩) (hk : unitSteps i (s.source i.srcLen) = k)
    (hcells : cells.length ≤ n) (hany : lo ≠ none → i.dstCap ≤ n) :
    ∃ t, runSteps k s = .next t ∧ t.mode = .idle ∧ t.received = s.received ++ [r.word] ∧
      (∀ j < cells.length, t.dstCell j = cells.getD j 0#8) ∧
      ∀ a, inWindow s.dstBase n a = false → t.cell a = s.cell a := by
  subst hk
  refine ⟨_, runs_to_transact hw hl hd, (transact_mode i s).trans hl.1.1, by rw [transact_received, hres],
    fun j hj => ?_, fun a ha => transact_cell_outside (by rwa [hres]) (by rwa [hres]) ha⟩
  rw [transact_dstCell (by rwa [hres]), List.getD_eq_getElem _ _ hj]
  simp only [hres]

/-- Settles O56: the result of an ENCODE with room for its output is the encoding, `enclen` characters long. -/
theorem encodeLeavesTheEncoding : Obligations.EncodeLeavesTheEncoding := by
  intro s cap n hw hl hov hcap
  have hres : resultOf (.encode cap n) (s.source n) = ⟨⟨.ok, 0⟩, codecEncode (s.source n), none⟩ :=
    if_neg (Nat.not_lt.2 hcap)
  have hsteps : unitSteps (.encode cap n) (s.source n) = 2 + (n + 2) / 3 := if_neg (Nat.not_lt.2 hcap)
  have hlen : (codecEncode (s.source n)).length = enclen n := by rw [codecEncode_length, source_length]
  rw [← hlen]
  exact launched_leaves _ hw hl ((Bool.not_eq_true' _).mpr hov) hres hsteps (Nat.le_refl _) (absurd rfl)

/-- Settles O57: the result of a DECODE of a good input is its bytes, and there are `declen` of them. -/
theorem decodeLeavesTheBytes : Obligations.DecodeLeavesTheBytes := by
  intro s cap m B hw hl hov hwhole hB hcap
  have hlen : B.length = declen m (codecPadcount (s.source m)) := by
    obtain ⟨hgood, rfl⟩ := codecDecode_ok hB
    rw [bytesOfGroups_length (by rwa [source_length]) hgood, source_length]
  have hres := resultOf_decode_ok hwhole (hlen ▸ hcap) hB
  rw [← hlen] at hres
  exact launched_leaves _ hw hl ((Bool.not_eq_true' _).mpr hov) hres (unitSteps_decode_ok hres) (Nat.le_refl _) (absurd rfl)

/-- Settles O58: the groups before the one with the first bad index have three bytes each, all inside the capacity. -/
theorem failedDecodeKeepsEarlierGroups : Obligations.FailedDecodeKeepsEarlierGroups := by
  intro s cap m k hw hl hov hwhole hk hcap
  have hres := resultOf_decode_error hwhole hcap hk
  obtain ⟨hlt, _, hgood⟩ := codecDecode_error hk
  rw [source_length] at hlt
  have hlen : (bytesOfGroups ((s.source m).take (4 * (k / 4)))).length = 3 * (k / 4) :=
    bytesOfGroups_take_length (by rw [source_length]; omega) fun j hj => hgood j (by omega)
  have hfits : 3 * (k / 4) ≤ cap := by
    have hp := codecPadcount_le_two (s.source m)
    unfold declen at hcap
    omega
  rw [Nat.add_assoc, ← hlen]
  exact launched_leaves cap hw hl ((Bool.not_eq_true' _).mpr hov) hres (unitSteps_decode_invalid hres)
    (hlen.trans_le hfits) fun _ => Nat.le_refl _

end Sys2Proof.Machine
end

section
/-! PROOFS. The unit keeps to the buffers lent (R42, R43, R54): what each of its steps accesses and writes, and with it that the
source of a command is unchanged at every step of its operation. -/

namespace Sys2Proof.Machine

/-! Accesses of a group. -/

theorem groupReads_inside (s : State) {base k n : Nat} (cap : Nat) (h : base + k ≤ n) :
    ∀ x ∈ s.groupReads base k, x.inside n cap = true := by
  intro x hx
  obtain ⟨j, hj, rfl⟩ := List.mem_map.1 hx
  have hlt := List.mem_range.1 hj
  exact decide_eq_true (by omega)

theorem writesFrom_inside (n : Nat) {j cap : Nat} {vs : List Byte} (h : j + vs.length ≤ cap) :
    ∀ x ∈ writesFrom j vs, x.inside n cap = true := by
  intro x hx
  obtain ⟨k, hk, rfl⟩ := List.mem_mapIdx.1 hx
  exact decide_eq_true (by omega)

/-- Every access and every changed cell of a group step is inside the buffers of its context (R43): it reads some cells of the
source, and of the consecutive destination cells that it changes it writes a first part. -/
theorem groupStep_inside {c : Context} {s t : State} (hi : Inv s) (hm : s.mode = .run c) (h : groupStep c s = .next t) :
    ∃ base k j, ∃ vs ws : List Byte, base + k ≤ c.n ∧ j + vs.length ≤ c.cap ∧ ws.length ≤ vs.length ∧ t = { s with
      mode := t.mode
      mem := Memory.writeAll s.mem (s.dstBase + j) vs
      bus := s.groupReads base k ++ writesFrom j ws
      draws := t.draws } := by
  obtain ⟨_, _, _, henc, hdec⟩ := Inv.run hi hm
  have hp := c.p.isLt
  obtain ⟨hg, ⟨k, v, vs, ho, _, hk, _, hlen, rfl⟩ | ⟨vs, ho, hlen, hroom, rfl⟩ | ⟨k, ho, hk, rfl⟩⟩ := groupStep_cases h
  · have hcap := henc ho
    rw [Context.groups_encode ho, encodeGroups] at hg
    unfold enclen at hcap
    exact ⟨_, _, _, vs, vs, hk, by omega, Nat.le_refl _, rfl⟩
  · obtain ⟨_, hcap⟩ := hdec ho
    rw [Context.groups_decode ho, decodeGroups] at hg
    unfold declen at hcap
    have hlast := hroom (vs.length - 1)
    exact ⟨_, _, _, vs, vs, by omega, by omega, Nat.le_refl _, rfl⟩
  · obtain ⟨_, hcap⟩ := hdec ho
    rw [Context.groups_decode ho, decodeGroups] at hg
    unfold declen at hcap
    refine ⟨4 * c.g, k + 1, 3 * c.g, freeBytes s.draws (c.cap - 3 * c.g), [], by omega, ?_, Nat.zero_le _, ?_⟩
    · rw [freeBytes_length]
      omega
    · simp [writesFrom]

/-! The unit's own steps. -/

/-- A unit step leaves every cell outside the lent destination as it is (R42, R54). -/
theorem unitStep_cell {s t : State} (hi : Inv s) (h : unitStep s = .next t) {a : Nat}
    (ha : inWindow s.dstBase s.lentDst a = false) : t.cell a = s.cell a := by
  rcases unitStep_cases h with ⟨_, rfl⟩ | ⟨_, _, _, rfl⟩ | ⟨w, _, _, _, he⟩ | ⟨c, _, hm, hg⟩ | ⟨r, _, _, _, rfl⟩ |
    ⟨_, _, _, _, rfl⟩
  · rfl
  · rfl
  · rcases exec_cases he with rfl | ⟨_, _, l, m, b, rfl⟩ <;> rfl
  · obtain ⟨_, _, hl, _⟩ := Inv.run hi hm
    obtain ⟨base, k, j, vs, ws, _, hvs, _, ht⟩ := groupStep_inside hi hm hg
    have hmem : t.mem = Memory.writeAll s.mem (s.dstBase + j) vs := congrArg State.mem ht
    have hlent : s.lentDst = c.cap := State.lentDst_some hl
    rw [hlent, inWindow_eq_false_iff] at ha
    refine State.cell_congr ?_
    rw [hmem, Memory.read_writeAll_outside _ _ (by omega)]
  · cases hs : s.spoiled with
    | false => rw [State.takeResponse_unspoiled hs]; rfl
    | true => rw [State.takeResponse_spoiled hs]; exact State.cell_anyDst_lent s ha
  · rfl

/-- Settles O36: with an empty agenda the step is the unit's. -/
theorem unitWritesOnlyLentDestination : Obligations.UnitWritesOnlyLentDestination := by
  intro s t hi hfree h a ha
  rw [step_of_free hfree] at h
  exact unitStep_cell hi h ha

/-- The two reads of an accept step are of source cells that the command has (R131, R132). -/
theorem acceptBus_inside (s : State) (i : Instr) :
    ∀ x ∈ acceptBus s i, x.inside (acceptLoan i).srcLen (acceptLoan i).dstCap = true := by
  cases i with
  | decode cap m =>
    simp only [acceptBus, acceptLoan]
    split
    · nofun
    · split
      · nofun
      · simp only [List.forall_mem_cons, Access.inside, decide_eq_true_eq]
        exact ⟨by omega, by omega, nofun⟩
  | _ => nofun

/-- Settles O37, by the step of the unit: only accept and group steps have accesses, and the loan after the step is that of
their operation. -/
theorem accessesStayInsideTheBuffers : Obligations.AccessesStayInsideTheBuffers := by
  intro s t hi hfree h
  rw [step_of_free hfree] at h
  rcases unitStep_cases h with ⟨_, rfl⟩ | ⟨_, _, _, rfl⟩ | ⟨w, hr, hm, _, he⟩ | ⟨c, _, hm, hg⟩ | ⟨r, _, _, _, rfl⟩ |
    ⟨_, _, _, _, rfl⟩
  · nofun
  · nofun
  · rw [exec_of_unitIdle ⟨hm, hr⟩] at he
    injection he with he
    subst he
    exact acceptBus_inside s (decodeWord w)
  · obtain ⟨_, _, hl, _⟩ := Inv.run hi hm
    obtain ⟨base, k, j, vs, ws, hk, hvs, hws, ht⟩ := groupStep_inside hi hm hg
    have hloan : t.loan = some ⟨c.n, c.cap⟩ := (congrArg State.loan ht).trans hl
    have hbus : t.bus = s.groupReads base k ++ writesFrom j ws := congrArg State.bus ht
    rw [State.lentSrc_some hloan, State.lentDst_some hloan, hbus]
    exact List.forall_mem_append.2 ⟨groupReads_inside s c.cap hk, writesFrom_inside c.n (show j + ws.length ≤ c.cap by omega)⟩
  · nofun
  · nofun

/-! The source during an operation. -/

/-- The take step gives the buffers back and hands a word over, spoiled or not; the offer, the ports and what the host still
does stay (R23). -/
theorem State.takeResponse_frame (s : State) (r : Response) : ∃ mem received draws, s.takeResponse r = { s with
    mode := .idle, take := false, loan := none, spoiled := false, bus := []
    mem := mem, received := received, draws := draws } := by
  cases hs : s.spoiled with
  | false => exact ⟨_, _, _, State.takeResponse_unspoiled hs r⟩
  | true => exact ⟨_, _, _, State.takeResponse_spoiled hs r⟩

/-- What every step keeps, every run keeps. -/
theorem runSteps_keeps {P : State → Prop} (hstep : ∀ u v, P u → step u = .next v → P v) {k : Nat} {s t : State}
    (hs : P s) (h : runSteps k s = .next t) : P t := by
  induction k generalizing s with
  | zero =>
    rw [runSteps_zero] at h
    injection h with h
    exact h ▸ hs
  | succ k ih =>
    have hcore : Sys2Proof.core.step s = step s := rfl
    simp only [runSteps, Host.Core.run, hcore] at h
    split at h
    · rename_i u hu
      exact ih (hstep s u hs hu) h
    · cases h
    · cases h

/-- The operation of command `i`, launched from `s` and left alone, has come to `t`: the invariant holds, the host has no act
left, the ports are bound as before, only `i` can be offered and only its buffers lent, and its source is as in `s`. -/
structure Underway (i : Instr) (s t : State) : Prop where
  inv : Inv t
  free : t.agenda = []
  srcBase : t.srcBase = s.srcBase
  dstBase : t.dstBase = s.dstBase
  offer : t.cmd = some (encodeWord i) ∨ t.cmd = none
  lent : t.loan = some (acceptLoan i) ∨ t.loan = none
  source : ∀ j < i.srcLen, t.srcCell j = s.srcCell j

/-- No source cell of a command with disjoint buffers is one of the destination cells lent with it (R194). -/
theorem source_outside_loan {i : Instr} {s : State} (hd : disjointOk i s = true) {j : Nat} (hj : j < i.srcLen) :
    inWindow s.dstBase (acceptLoan i).dstCap (s.srcBase + j) = false := by
  have hov := overlaps_of_disjointOk hd
  rw [inWindow_eq_false_iff]
  cases i with
  | enclen cap n => exact Nat.lt_or_ge ..
  | reserved3 cap n => exact Nat.lt_or_ge ..
  | encode cap n =>
    by_contra hin
    exact overlaps_false hov hj (j := s.srcBase + j - s.dstBase) (by omega) (by omega)
  | decode cap m =>
    by_contra hin
    exact overlaps_false hov hj (j := s.srcBase + j - s.dstBase) (by omega) (by omega)

namespace Underway

variable {i : Instr} {s t : State}

theorem source_outside_lent (h : Underway i s t) (hd : disjointOk i s = true) {j : Nat} (hj : j < i.srcLen) :
    inWindow t.dstBase t.lentDst (t.srcBase + j) = false := by
  rw [h.srcBase, h.dstBase]
  rcases h.lent with hl | hl
  · rw [State.lentDst_some hl]
    exact source_outside_loan hd hj
  · rw [State.lentDst_none hl, inWindow_eq_false_iff]
    exact Nat.lt_or_ge ..

/-- A step that keeps the ports and neither offers nor lends anything new keeps the operation underway: the rest is the
invariant and the frame of the unit's step. -/
theorem of_step {u : State} (h : Underway i s t) (hd : disjointOk i s = true) (hu : step t = .next u)
    (hfree : u.agenda = t.agenda) (hsrc : u.srcBase = t.srcBase) (hdst : u.dstBase = t.dstBase)
    (hcmd : u.cmd = t.cmd ∨ u.cmd = none) (hloan : u.loan = some (acceptLoan i) ∨ u.loan = t.loan ∨ u.loan = none) :
    Underway i s u where
  inv := stepKeepsTheInvariant t u h.inv hu
  free := hfree.trans h.free
  srcBase := hsrc.trans h.srcBase
  dstBase := hdst.trans h.dstBase
  offer := hcmd.elim (fun e => e ▸ h.offer) .inr
  lent := hloan.elim .inl (Or.elim · (fun e => e ▸ h.lent) .inr)
  source j hj := by
    rw [← h.source j hj, State.srcCell, State.srcCell, hsrc]
    exact unitWritesOnlyLentDestination t u h.inv h.free hu _ (h.source_outside_lent hd hj)

/-- The unit's step keeps the operation underway: the only word it can accept is that of `i`. -/
theorem step_keeps (hw : i.wf = true) (hd : disjointOk i s = true) {u : State} (h : Underway i s t)
    (hu : step t = .next u) : Underway i s u := by
  have hunit := hu
  rw [step_of_free h.free] at hunit
  rcases unitStep_cases hunit with ⟨_, rfl⟩ | ⟨_, _, _, rfl⟩ | ⟨w, hr, hm, hc, he⟩ | ⟨c, _, hm, hg⟩ | ⟨r, _, _, _, rfl⟩ |
    ⟨_, _, _, _, rfl⟩
  · exact h.of_step hd hu rfl rfl rfl (.inl rfl) (.inr (.inl rfl))
  · exact h.of_step hd hu rfl rfl rfl (.inl rfl) (.inr (.inl rfl))
  · have hword : w = encodeWord i := by
      rcases h.offer with ho | ho <;> rw [hc] at ho <;> cases ho
      rfl
    rw [hword, decodeWord_encodeWord hw, exec_of_unitIdle ⟨hm, hr⟩] at he
    injection he with he
    subst he
    exact h.of_step hd hu rfl rfl rfl (.inr rfl) (.inl rfl)
  · obtain ⟨_, _, _, _, _, _, _, _, ht⟩ := groupStep_inside h.inv hm hg
    exact h.of_step hd hu (congrArg State.agenda ht :) (congrArg State.srcBase ht :) (congrArg State.dstBase ht :)
      (.inl (congrArg State.cmd ht :)) (.inr (.inl (congrArg State.loan ht :)))
  · obtain ⟨mem, received, draws, ht⟩ := t.takeResponse_frame r
    rw [ht] at hu ⊢
    exact h.of_step hd hu rfl rfl rfl (.inl rfl) (.inr (.inr rfl))
  · exact h.of_step hd hu rfl rfl rfl (.inl rfl) (.inr (.inl rfl))

end Underway

/-- Settles O60: a launched operation is underway, every step keeps it so, and its source is as it was. -/
theorem sourceIsUnchangedThroughout : Obligations.SourceIsUnchangedThroughout := by
  intro s t i k hw hl hd hi hrun
  obtain ⟨_, hcmd, _, _, hloan, hfree⟩ := hl
  have hstart : Underway i s s := ⟨hi, hfree, rfl, rfl, .inl hcmd, .inr hloan, fun _ _ => rfl⟩
  exact (runSteps_keeps (fun _ _ h hu => h.step_keeps hw hd hu) hstart hrun).source

end Sys2Proof.Machine
end

section
/-! PROOFS. A good group of a DECODE (R83, R133, R138, R143): in a state that meets the invariants with no breach its last two
characters have one of three shapes, and the step writes the bytes of that shape. -/

namespace Sys2Proof.Machine

/-- What the invariants say of a DECODE in `RUN` that no breach has spoiled. -/
theorem decodeRun_of_inv {s : State} {c : Context} (hturn : UnitsTurn s) (hi : Inv s) (hp : PadCountHolds s)
    (hs : s.spoiled = false) (hm : s.mode = .run c) (ho : c.op = .decode) : DecodeRun c s := by
  obtain ⟨_, hg, _, _, hdec⟩ := Inv.run hi hm
  obtain ⟨hwhole, hfits⟩ := hdec ho
  obtain ⟨hov, hpads⟩ := (padCountHolds_run hm).1 hp ho hs
  rw [Context.groups_decode ho] at hg
  exact ⟨hturn, hm, ho, hg, hwhole, hfits, hov, hpads⟩

/-- An acceptable character is a sextet, or a pad where R135 allows one. -/
theorem dec_of_positionOk {c : Context} {i : Nat} {ch : Byte} (h : positionOk c i ch = true) :
    (∃ v, dec ch = .sextet v) ∨ (dec ch = .pad ∧ c.g + 1 = c.n / 4 ∧ 4 - c.p.val ≤ i) := by
  unfold positionOk at h
  split at h
  · rename_i v hv
    exact .inl ⟨v, hv⟩
  · rename_i hpad
    exact .inr ⟨hpad, (padLegal_iff c i).1 h⟩
  · cases h

/-- A destination cell of the group holds the byte written to it, or what it held before (R138). -/
theorem State.dstCell_decoded (s : State) (c : Context) (k : Nat) :
    (s.decoded c).dstCell (3 * c.g + k) = (sourceGroupBytes c s)[k]?.getD (s.dstCell (3 * c.g + k)) := by
  show (Memory.read (Memory.writeAll s.mem (s.dstBase + 3 * c.g) (sourceGroupBytes c s))
    (s.dstBase + (3 * c.g + k))).getD _ = _
  rw [← Nat.add_assoc]
  rcases Nat.lt_or_ge k (sourceGroupBytes c s).length with hk | hk
  · rw [Memory.read_writeAll_inside _ _ _ _ hk, List.getElem?_eq_getElem hk]
    rfl
  · rw [Memory.read_writeAll_outside _ _ (.inr (by omega)), List.getElem?_eq_none hk, Nat.add_assoc]
    rfl

/-- A good group changes no cell but its own three. -/
theorem State.cell_decoded (s : State) (c : Context) {a : Nat}
    (ha : a < s.dstBase + 3 * c.g ∨ s.dstBase + 3 * c.g + 3 ≤ a) : (s.decoded c).cell a = s.cell a := by
  have hlen : (sourceGroupBytes c s).length ≤ 3 := bytesOfFields_length_le ..
  exact State.cell_congr (Memory.read_writeAll_outside _ _ (by omega))

namespace DecodeRun

variable {c : Context} {s : State} (h : DecodeRun c s)
include h

theorem groupGood_of_positionOk (hok : ∀ i < 4, positionOk c i (s.srcCell (4 * c.g + i)) = true) : GroupGood c s := by
  intro i hi
  have hsome := h.fieldAt_isSome_eq hi
  rw [fieldAt_isSome, hok i hi] at hsome
  exact (Bool.not_eq_true' _).mp hsome.symm

/-- The last two characters of a group are two sextets, a sextet and a pad, or two pads: a pad before a sextet does not fit
the pad count (R131, R135). -/
theorem last_two_shapes (h2 : positionOk c 2 (s.srcCell (4 * c.g + 2)) = true)
    (h3 : positionOk c 3 (s.srcCell (4 * c.g + 3)) = true) :
    (∃ v2 v3, dec (s.srcCell (4 * c.g + 2)) = .sextet v2 ∧ dec (s.srcCell (4 * c.g + 3)) = .sextet v3) ∨
    (∃ v2, dec (s.srcCell (4 * c.g + 2)) = .sextet v2 ∧ dec (s.srcCell (4 * c.g + 3)) = .pad) ∨
    (dec (s.srcCell (4 * c.g + 2)) = .pad ∧ dec (s.srcCell (4 * c.g + 3)) = .pad) := by
  rcases dec_of_positionOk h2 with ⟨v2, hd2⟩ | ⟨hd2, hlast, hp⟩
  · rcases dec_of_positionOk h3 with ⟨v3, hd3⟩ | ⟨hd3, _, _⟩
    · exact .inl ⟨v2, v3, hd2, hd3⟩
    · exact .inr (.inl ⟨v2, hd2, hd3⟩)
  · refine .inr (.inr ⟨hd2, ?_⟩)
    by_contra hne
    rw [h.pads_eq_zero hlast hne] at hp
    simp at hp

end DecodeRun

/-- Settles O18: a group step on a good group writes the bytes of its characters; the clauses about cells and accesses are
read off for each shape of the last two. -/
theorem decodeGroupWritesItsBytes : Obligations.DecodeGroupWritesItsBytes := by
  intro s c v0 v1 hturn hi hp hs hm ho h0 h1 h2 h3
  have hrun := decodeRun_of_inv hturn hi hp hs hm ho
  have hgood : GroupGood c s := hrun.groupGood_of_positionOk fun i hi => by
    interval_cases i
    · rw [Nat.add_zero, positionOk, h0]
    · rw [positionOk, h1]
    · exact h2
    · exact h3
  have hcell := s.dstCell_decoded c
  have hbus : (s.decoded c).bus = s.groupReads (4 * c.g) 4 ++ writesFrom (3 * c.g) (sourceGroupBytes c s) := rfl
  have hmode : (s.decoded c).mode = if c.g + 1 = c.n / 4 then .done ⟨.ok, c.n / 4 * 3 - c.p⟩
      else .run { c with g := c.g + 1 } := by
    show c.nextMode _ = _
    rw [Context.nextMode, Context.groups_decode ho]
    rfl
  refine ⟨s.decoded c, hrun.step_of_good hgood, ?_⟩
  rcases hrun.last_two_shapes h2 h3 with ⟨v2, v3, hd2, hd3⟩ | ⟨v2, hd2, hd3⟩ | ⟨hd2, hd3⟩
  · rw [sourceGroupBytes, h0, h1, hd2, hd3, bytesOfFields, byte0_eq, byte1_eq, byte2_eq] at hcell hbus
    rw [hd2, hd3]
    refine ⟨hcell 0, ?_, nofun, nofun, fun _ => s.cell_decoded c, hmode, hbus, rfl⟩
    rintro _ ⟨⟩
    exact ⟨hcell 1, by rintro _ ⟨⟩; exact hcell 2⟩
  · rw [sourceGroupBytes, h0, h1, hd2, hd3, bytesOfFields, byte0_eq, byte1_eq] at hcell hbus
    rw [hd2, hd3]
    refine ⟨hcell 0, ?_, nofun, fun _ => hcell 2, fun _ => s.cell_decoded c, hmode, hbus, rfl⟩
    rintro _ ⟨⟩
    exact ⟨hcell 1, nofun⟩
  · rw [sourceGroupBytes, h0, h1, hd2, hd3, bytesOfFields, byte0_eq] at hcell hbus
    rw [hd2, hd3]
    exact ⟨hcell 0, nofun, fun _ => hcell 1, fun _ => hcell 2, fun _ => s.cell_decoded c, hmode, hbus, rfl⟩

end Sys2Proof.Machine
end

section
/-! PROOFS. The interface words and the bits of a command word (R70 to R72, R75, R160): the layout of both words as numbers,
and that a command word and its command determine each other. -/

namespace Sys2Proof.Machine

/-- A concatenation as a number: the high part counts in units of the low part's range. -/
theorem toNat_append_eq_mul_add {m n : Nat} (x : BitVec m) (y : BitVec n) :
    (x ++ y).toNat = x.toNat * 2 ^ n + y.toNat := by
  rw [BitVec.toNat_append, ← Nat.shiftLeft_add_eq_or_of_lt y.isLt, Nat.shiftLeft_eq]

/-- The command word as 95_test_vectors.md writes it: `op << 64 | dst_cap << 32 | src_len` (R70). -/
theorem encodeWord_toNat {i : Instr} (hcap : i.dstCap < 2 ^ 32) (hlen : i.srcLen < 2 ^ 32) :
    (encodeWord i).toNat = i.opcode.toNat * 2 ^ 64 + i.dstCap * 2 ^ 32 + i.srcLen := by
  rw [encodeWord, toNat_append_eq_mul_add, toNat_append_eq_mul_add, BitVec.toNat_ofNat, BitVec.toNat_ofNat,
    Nat.mod_eq_of_lt hcap, Nat.mod_eq_of_lt hlen, ← Nat.add_assoc]

/-- The response word as a number (R75). -/
theorem Response.toNat_word {st : Status} {v : Nat} (h : v < 2 ^ 33) :
    (Response.word ⟨st, v⟩).toNat = st.code.toNat * 2 ^ 33 + v := by
  rw [Response.word, toNat_append_eq_mul_add, BitVec.toNat_ofNat, Nat.mod_eq_of_lt h]

/-- The code of a decoded command is the word's field `op`: the fourth arm is left with `op = 3` alone (R71, R72). -/
theorem opcode_decodeWord (w : CmdWord) : (decodeWord w).opcode = CmdWord.op w := by
  have hcodes : ∀ c : BitVec 2, c ≠ 0#2 → c ≠ 1#2 → c ≠ 2#2 → 3#2 = c := by decide
  unfold decodeWord
  split_ifs with h0 h1 h2
  · exact h0.symm
  · exact h1.symm
  · exact h2.symm
  · exact hcodes _ h0 h1 h2

theorem dstCap_decodeWord (w : CmdWord) : (decodeWord w).dstCap = CmdWord.dstCap w := by
  unfold decodeWord
  split_ifs <;> rfl

theorem srcLen_decodeWord (w : CmdWord) : (decodeWord w).srcLen = CmdWord.srcLen w := by
  unfold decodeWord
  split_ifs <;> rfl

/-- The three fields of a word, put together again, are the word: they leave out no bit of it (R70). -/
theorem encodeWord_decodeWord (w : CmdWord) : encodeWord (decodeWord w) = w := by
  have hlow : w.extractLsb' 32 32 ++ w.extractLsb' 0 32 = w.extractLsb' 0 64 :=
    BitVec.extractLsb'_append_extractLsb'_eq_extractLsb' rfl
  rw [encodeWord, opcode_decodeWord, dstCap_decodeWord, srcLen_decodeWord, CmdWord.op, CmdWord.dstCap, CmdWord.srcLen,
    BitVec.ofNat_toNat, BitVec.ofNat_toNat, BitVec.setWidth_eq, BitVec.setWidth_eq, hlow]
  exact BitVec.extractLsb'_append_extractLsb' (w := 2)

/-- Nine bytes hold every number below `2^72`, so reading them back is reading the number. -/
theorem decodeBytes_bytesOfBits {w : Nat} (h : w < 2 ^ 72) : decodeBytes (bytesOfBits 9 w) = decodeBits w := by
  rw [decodeBytes, if_pos (bytesOfBits_length 9 w), bitsOfBytes_bytesOfBits 9 h]

/-- A bit above bit 65 is in no command word, whether it is in the ninth byte or above it (R70). -/
theorem decodeTableWord_of_ge (nbits : Nat) {w : Nat} (h : 2 ^ 66 ≤ w) : decodeTableWord nbits w = none := by
  unfold decodeTableWord
  split
  · rename_i hnine
    rw [decodeBytes_bytesOfBits hnine, decodeBits, if_neg (Nat.not_lt.2 h)]
  · rfl

/-- Settles O2: the word's fields are the command's, and the code chooses its constructor. -/
theorem decodeOfEncodeIsTheCommand : Obligations.DecodeOfEncodeIsTheCommand := fun _ => decodeWord_encodeWord

/-- Settles O3: both fields fit their 32 bits, and the three fields are all the bits of the word. -/
theorem everyWordIsTheWordOfItsCommand : Obligations.EveryWordIsTheWordOfItsCommand := fun w =>
  ⟨wf_decodeWord w, encodeWord_decodeWord w⟩

/-- Settles O4: the layout once, at the code of each command. -/
theorem commandWordLayout : Obligations.CommandWordLayout := fun cap n hcap hlen =>
  ⟨encodeWord_toNat (i := .enclen cap n) hcap hlen, encodeWord_toNat (i := .encode cap n) hcap hlen,
    encodeWord_toNat (i := .decode cap n) hcap hlen, encodeWord_toNat (i := .reserved3 cap n) hcap hlen⟩

/-- Settles O1: the five words are evaluated; the last clause is that of a bit above bit 65. -/
theorem sampleCommandWordsDecode : Obligations.SampleCommandWordsDecode :=
  ⟨by decide, by decide, by decide, by decide, by decide, fun nbits _ => decodeTableWord_of_ge nbits⟩

/-- Settles O5: the layout once, at the code of each status. -/
theorem responseWordLayout : Obligations.ResponseWordLayout := fun _ h =>
  ⟨Response.toNat_word (st := .ok) h, Response.toNat_word (st := .invalidChar) h,
    Response.toNat_word (st := .precondition) h, Response.toNat_word (st := .illegalOp) h⟩

/-- Settles O11: the accepted state of the reserved code, whose empty loan overlaps nothing. -/
theorem reservedCodeIsIllegalOp : Obligations.ReservedCodeIsIllegalOp := by
  intro s cap n h
  rw [exec_of_unitIdle h, State.accepted, acceptLoan, s.overlaps_zero]
  rfl

end Sys2Proof.Machine
end

section
/-! PROOFS. The group formats and the two tables (R76, R79 to R84): the encoder's slices and the decoder's formulas undo each
other, and every entry of the decode table is the one its character asks for. -/

namespace Sys2Proof.Machine

/-- The sextets of the group of three bytes give the bytes back: each byte is made of the two slices it was cut into. -/
theorem bytes_of_group24 (b0 b1 b2 : Byte) :
    byte0 ((group24 b0 b1 b2).extractLsb' 18 6) ((group24 b0 b1 b2).extractLsb' 12 6) = b0 ∧
    byte1 ((group24 b0 b1 b2).extractLsb' 12 6) ((group24 b0 b1 b2).extractLsb' 6 6) = b1 ∧
    byte2 ((group24 b0 b1 b2).extractLsb' 6 6) ((group24 b0 b1 b2).extractLsb' 0 6) = b2 := by
  rw [sextet0_group24, sextet1_group24, sextet2_group24, sextet3_group24, byte0_eq, byte1_eq, byte2_eq,
    BitVec.extractLsb'_append_eq_left, BitVec.extractLsb'_append_eq_right, BitVec.extractLsb'_append_eq_left,
    BitVec.extractLsb'_append_eq_right]
  exact ⟨BitVec.extractLsb'_append_extractLsb' (w := 6), BitVec.extractLsb'_append_extractLsb' (w := 4),
    BitVec.extractLsb'_append_extractLsb' (w := 2)⟩

/-- The bytes made of four sextets have them as their group's slices: each sextet is whole in one byte, or cut in two. -/
theorem sextets_of_bytes (f0 f1 f2 f3 : Sextet) :
    (group24 (byte0 f0 f1) (byte1 f1 f2) (byte2 f2 f3)).extractLsb' 18 6 = f0 ∧
    (group24 (byte0 f0 f1) (byte1 f1 f2) (byte2 f2 f3)).extractLsb' 12 6 = f1 ∧
    (group24 (byte0 f0 f1) (byte1 f1 f2) (byte2 f2 f3)).extractLsb' 6 6 = f2 ∧
    (group24 (byte0 f0 f1) (byte1 f1 f2) (byte2 f2 f3)).extractLsb' 0 6 = f3 := by
  rw [sextet0_group24, sextet1_group24, sextet2_group24, sextet3_group24, byte0_eq, byte1_eq, byte2_eq]
  refine ⟨BitVec.extractLsb'_append_eq_left, ?_, ?_, BitVec.extractLsb'_append_eq_right⟩
  · rw [BitVec.extractLsb'_append_eq_right, BitVec.extractLsb'_append_eq_left]
    exact BitVec.extractLsb'_append_extractLsb' (w := 2)
  · rw [BitVec.extractLsb'_append_eq_right, BitVec.extractLsb'_append_eq_left]
    exact BitVec.extractLsb'_append_extractLsb' (w := 4)

/-- Settles O46: each format cuts where the other joins. -/
theorem groupFormatsAreInverse : Obligations.GroupFormatsAreInverse := ⟨bytes_of_group24, sextets_of_bytes⟩

/-! The tables: a finite fact for each of the two directions, all else from them. -/

/-- The decode table read at the character of a sextet, for each of the 64 (R84). -/
theorem dec_alpha (v : Sextet) : dec (alpha v) = .sextet v := by
  revert v
  decide

theorem alpha_injective {v w : Sextet} (h : alpha v = alpha w) : v = w :=
  DecEntry.sextet.inj ((dec_alpha v).symm.trans ((congrArg dec h).trans (dec_alpha w)))

theorem alpha_ne_padChar (v : Sextet) : alpha v ≠ padChar := fun h =>
  DecEntry.noConfusion ((dec_alpha v).symm.trans ((congrArg dec h).trans dec_padChar))

/-- The entry is one that the table may hold for the character: a sextet only for its own character, `PAD` only for `=`. -/
def DecEntry.suits (c : Byte) : DecEntry → Bool
  | .sextet v => c == alpha v
  | .pad => c == padChar
  | .inv => true

/-- The decode table read at each of the 256 codes (R80, R81). -/
theorem dec_suits (c : Byte) : (dec c).suits c = true := by
  revert c
  decide

theorem suits_of_dec {c : Byte} {e : DecEntry} (h : dec c = e) : e.suits c = true := h ▸ dec_suits c

/-- A sextet is what `dec` gives for its own character, and for no other (R81, R84). -/
theorem dec_eq_sextet_iff (c : Byte) (v : Sextet) : dec c = .sextet v ↔ c = alpha v :=
  ⟨fun h => eq_of_beq (suits_of_dec h), fun h => h ▸ dec_alpha v⟩

/-- `PAD` is what `dec` gives for `=`, and for no other character (R78, R81). -/
theorem dec_eq_pad_iff (c : Byte) : dec c = .pad ↔ c = padChar :=
  ⟨fun h => eq_of_beq (suits_of_dec h), fun h => h ▸ dec_padChar⟩

/-- Below the table's base and beyond its 80 entries there is no character (R81). -/
theorem dec_outside {c : Byte} (h : c.toNat < 0x2B ∨ 0x7A < c.toNat) : dec c = .inv := by
  unfold dec decBase
  split
  · rfl
  · exact List.getD_eq_default _ _ (by rw [decTable_length]; omega)

/-- From the table's base to its last entry `dec` reads the table (R80, R81). -/
theorem dec_inside {c : Byte} (hlo : 0x2B ≤ c.toNat) (hhi : c.toNat ≤ 0x7A) :
    some (dec c) = decTable[c.toNat - 0x2B]? := by
  have hlen : c.toNat - 0x2B < decTable.length := by rw [decTable_length]; omega
  rw [dec, decBase, if_neg (Nat.not_lt.2 hlo), List.getD_eq_getElem _ _ hlen, List.getElem?_eq_getElem hlen]

/-- The order of the alphabet: `A-Z`, `a-z`, `0-9`, `+`, `/` (R76). -/
theorem alpha_toNat (v : Sextet) : (alpha v).toNat =
    if v.toNat < 26 then 0x41 + v.toNat
    else if v.toNat < 52 then 0x61 + (v.toNat - 26)
    else if v.toNat < 62 then 0x30 + (v.toNat - 52)
    else if v.toNat = 62 then 0x2B
    else 0x2F := by
  revert v
  decide

/-- The character code `k` is classified `INV`. -/
def invCode (k : Nat) : Bool := decide (dec (BitVec.ofNat 8 k) = .inv)

theorem invCode_outside {k : Nat} (hk : k < 256) (h : k < 0x2B ∨ 0x7A < k) : invCode k = true :=
  decide_eq_true (dec_outside (by rwa [BitVec.toNat_ofNat, Nat.mod_eq_of_lt hk]))

/-- The count of R81: the 43 codes below the table, the 15 `INV` entries in it, the 133 codes beyond it. -/
theorem invCode_count : ((List.range 256).filter invCode).length = 191 := by
  have hcut : List.range 256 = List.range' 0 43 ++ (List.range' 43 80 ++ List.range' 123 133) := by
    rw [List.range'_append_1, List.range'_append_1, List.range_eq_range']
  have hbelow : (List.range' 0 43).filter invCode = List.range' 0 43 := List.filter_eq_self.2 fun k hk => by
    obtain ⟨_, hk⟩ := List.mem_range'_1.1 hk
    exact invCode_outside (by omega) (.inl (by omega))
  have hbeyond : (List.range' 123 133).filter invCode = List.range' 123 133 := List.filter_eq_self.2 fun k hk => by
    obtain ⟨hlo, hk⟩ := List.mem_range'_1.1 hk
    exact invCode_outside (by omega) (.inr (by omega))
  have htable : ((List.range' 43 80).filter invCode).length = 15 := by decide
  rw [hcut, List.filter_append, List.filter_append, hbelow, hbeyond, List.length_append, List.length_append, htable,
    List.length_range', List.length_range']

/-- Settles O44: `dec` undoes `alpha`, so `alpha` takes no character twice and not the pad. -/
theorem tablesAreInverse : Obligations.TablesAreInverse :=
  ⟨dec_alpha, fun _ _ => alpha_injective, alpha_ne_padChar⟩

/-- Settles O45: the two tables are inverse, the sentinels are where R81 puts them; and the count is that of `invCode`. -/
theorem decodeTableClassifies : Obligations.DecodeTableClassifies :=
  ⟨alpha_toNat, dec_eq_sextet_iff, dec_eq_pad_iff, fun _ => dec_outside, fun _ => dec_inside, invCode_count⟩

end Sys2Proof.Machine
end

section
/-! PROOFS. ENCLEN and the two length functions (R100 to R105): `enclen` counts the groups of three bytes, begun or whole,
and gives each four characters; `declen` gives each group its three bytes back, less the pads. -/

namespace Sys2Proof.Machine

theorem enclen_mod_four (n : Nat) : enclen n % 4 = 0 := Nat.mul_mod_left _ 4

theorem enclen_div_four (n : Nat) : enclen n / 4 = encodeGroups n := Nat.mul_div_cancel _ (by decide)

/-- The three bytes of every group are the bytes encoded and one for each pad (R117). -/
theorem encodeGroups_mul_three (n : Nat) : encodeGroups n * 3 = n + (3 - n % 3) % 3 := by
  unfold encodeGroups
  omega

/-- An encoding is longer than its input by one character for each group and one for each pad. -/
theorem enclen_eq_add (n : Nat) : enclen n = n + encodeGroups n + (3 - n % 3) % 3 :=
  calc enclen n = encodeGroups n * 3 + encodeGroups n := Nat.mul_succ _ 3
    _ = n + (3 - n % 3) % 3 + encodeGroups n := by rw [encodeGroups_mul_three]
    _ = n + encodeGroups n + (3 - n % 3) % 3 := Nat.add_right_comm ..

theorem encodeGroups_eq_zero_iff (n : Nat) : encodeGroups n = 0 ↔ n = 0 := by
  unfold encodeGroups
  omega

theorem enclen_eq_self_iff (n : Nat) : enclen n = n ↔ n = 0 := by
  constructor
  · intro h
    have hsum := enclen_eq_add n
    exact (encodeGroups_eq_zero_iff n).1 (by omega)
  · rintro rfl
    rfl

theorem le_enclen (n : Nat) : n ≤ enclen n := by
  rw [enclen_eq_add, Nat.add_assoc]
  exact Nat.le_add_right ..

theorem enclen_mono {a b : Nat} (h : a ≤ b) : enclen a ≤ enclen b :=
  Nat.mul_le_mul_right 4 (Nat.div_le_div_right (Nat.add_le_add_right h 2))

/-- `enclen` on the run of three lengths that begin or fill group `q` (R102). -/
theorem enclen_run (q : Nat) {r : Nat} (hr : 1 ≤ r ∧ r ≤ 3) : enclen (3 * q + r) = 4 * (q + 1) := by
  have hgroups : (3 * q + r + 2) / 3 = q + 1 := by omega
  rw [enclen, hgroups, Nat.mul_comm]

/-- Settles O40: the first clause is `enclen` itself, the second counts the characters of the codec's groups. -/
theorem enclenIsTheEncodedLength : Obligations.EnclenIsTheEncodedLength := ⟨fun _ => rfl, codecEncode_length⟩

/-- Settles O8: the accepted state of ENCLEN, which answers at once; the empty loan is among what may change. -/
theorem enclenAnswersTheEncodedLength : Obligations.EnclenAnswersTheEncodedLength :=
  ⟨fun s cap n h => ⟨s.accepted (.enclen cap n), exec_of_unitIdle h _, rfl, rfl, rfl⟩,
    fun cap n => op_encodeWord (.enclen cap n), by decide, by decide⟩

/-- Settles O41: a group is four characters, so both bounds and the runs follow from the count of groups. -/
theorem enclenProperties : Obligations.EnclenProperties :=
  ⟨fun n => ⟨enclen_mod_four n, le_enclen n, enclen_eq_self_iff n⟩, fun _ _ => enclen_mono,
    fun q => ⟨enclen_run q (by decide), enclen_run q (by decide), enclen_run q (by decide)⟩, fun _ => enclen_lt⟩

/-- Settles O42: the groups of the encoding hold the bytes and the pads, and `declen` takes the pads away. -/
theorem lengthFunctionsFit : Obligations.LengthFunctionsFit := by
  intro n
  rw [declen, enclen_div_four, encodeGroups_mul_three, Nat.add_sub_cancel]

end Sys2Proof.Machine
end

section
/-! PROOFS. The shape of an encoding (R110, R117, R118): characters of the alphabet, then one pad for each byte that the last
group lacks. From it, that no index of an encoding is bad and that its groups give the bytes back (R146). -/

namespace Sys2Proof.Machine

/-- The characters of some sextets, then `p` pads. -/
def alphaThenPads (vs : List Sextet) (p : Nat) : List Byte := vs.map alpha ++ List.replicate p padChar

@[simp] theorem alphaThenPads_length (vs : List Sextet) (p : Nat) : (alphaThenPads vs p).length = vs.length + p := by
  simp [alphaThenPads]

theorem alphaThenPads_getD_of_lt {vs : List Sextet} {p j : Nat} (h : j < vs.length) :
    (alphaThenPads vs p).getD j 0#8 = alpha vs[j] := by
  rw [List.getD_eq_getElem _ _ (by rw [alphaThenPads_length]; omega)]
  simp [alphaThenPads, List.getElem_append_left, h]

theorem alphaThenPads_getD_of_le {vs : List Sextet} {p j : Nat} (h : vs.length ≤ j) (hj : j < vs.length + p) :
    (alphaThenPads vs p).getD j 0#8 = padChar := by
  rw [List.getD_eq_getElem _ _ (by rwa [alphaThenPads_length])]
  simp [alphaThenPads, List.getElem_append_right, h]

/-- A pad stands exactly behind the characters of the sextets. -/
theorem alphaThenPads_getD_eq_padChar_iff {vs : List Sextet} {p j : Nat} (hj : j < vs.length + p) :
    (alphaThenPads vs p).getD j 0#8 = padChar ↔ vs.length ≤ j := by
  rcases Nat.lt_or_ge j vs.length with h | h
  · rw [alphaThenPads_getD_of_lt h]
    exact iff_of_false (alpha_ne_padChar _) (Nat.not_le.2 h)
  · exact iff_of_true (alphaThenPads_getD_of_le h hj) h

theorem mem_alphaThenPads {vs : List Sextet} {p : Nat} {y : Byte} (h : y ∈ alphaThenPads vs p) :
    y = padChar ∨ ∃ v, y = alpha v := by
  rcases List.mem_append.1 h with h | h
  · obtain ⟨v, _, rfl⟩ := List.mem_map.1 h
    exact .inr ⟨v, rfl⟩
  · exact .inl (List.eq_of_mem_replicate h)

/-- The pad count sees one or two pads at the end (R131). -/
theorem le_codecPadcount_alphaThenPads (vs : List Sextet) {p : Nat} (hp : p ≤ 2) :
    p ≤ codecPadcount (alphaThenPads vs p) := by
  rcases Nat.eq_zero_or_pos p with rfl | hpos
  · exact Nat.zero_le _
  · have hlast : (alphaThenPads vs p).getD (vs.length + p - 1) 0#8 = padChar :=
      alphaThenPads_getD_of_le (by omega) (by omega)
    rw [codecPadcount, alphaThenPads_length, if_neg (by omega), hlast, padcount, if_neg (not_not.2 rfl)]
    split
    · rename_i hne
      have hone : p ≠ 2 := by
        rintro rfl
        exact hne (alphaThenPads_getD_of_le (by omega) (by omega))
      show p ≤ 1
      omega
    · exact hp

/-- A sextet's character is never bad, and up to two pads at the end are not (R130, R131). -/
theorem codecBad_alphaThenPads {vs : List Sextet} {p j : Nat} (hp : p ≤ 2) (hj : j < vs.length + p) :
    codecBad (alphaThenPads vs p) j = false := by
  unfold codecBad
  rcases Nat.lt_or_ge j vs.length with h | h
  · rw [alphaThenPads_getD_of_lt h, dec_alpha]
  · have hcount := le_codecPadcount_alphaThenPads vs hp
    rw [alphaThenPads_getD_of_le h hj, dec_padChar, alphaThenPads_length]
    exact decide_eq_false (by omega)

/-- An encoding is characters of the alphabet, then one pad for each byte its last group lacks (R112 to R114, R117). -/
theorem codecEncode_eq_alphaThenPads (B : List Byte) :
    ∃ vs, codecEncode B = alphaThenPads vs ((3 - B.length % 3) % 3) := by
  induction B using codecEncode.induct with
  | case1 b0 b1 b2 rest ih =>
    obtain ⟨vs, hvs⟩ := ih
    have hlen : (b0 :: b1 :: b2 :: rest).length % 3 = rest.length % 3 := Nat.add_mod_right rest.length 3
    rw [codecEncode, hvs, hlen]
    exact ⟨_ :: _ :: _ :: _ :: vs, rfl⟩
  | case2 b0 b1 => exact ⟨[_, _, _], rfl⟩
  | case3 b0 => exact ⟨[_, _], rfl⟩
  | case4 => exact ⟨[], rfl⟩

/-! The bytes come back. -/

/-- A byte cut into its high six and low two bits is what `byte0` joins (R79, R83). -/
theorem byte0_of_slices (b : Byte) (x : BitVec 4) : byte0 (b.extractLsb' 2 6) (b.extractLsb' 0 2 ++ x) = b := by
  rw [byte0_eq, BitVec.extractLsb'_append_eq_left]
  exact BitVec.extractLsb'_append_extractLsb' (w := 6)

/-- A byte cut into two halves is what `byte1` joins (R79, R83). -/
theorem byte1_of_slices (x y : BitVec 2) (b : Byte) :
    byte1 (x ++ b.extractLsb' 4 4) (b.extractLsb' 0 4 ++ y) = b := by
  rw [byte1_eq, BitVec.extractLsb'_append_eq_right, BitVec.extractLsb'_append_eq_left]
  exact BitVec.extractLsb'_append_extractLsb' (w := 4)

/-- The groups of an encoding decode to the bytes encoded, the tail's too (R83, R112 to R114, R138). -/
theorem bytesOfGroups_codecEncode (B : List Byte) : bytesOfGroups (codecEncode B) = B := by
  induction B using codecEncode.induct with
  | case1 b0 b1 b2 rest ih =>
    obtain ⟨h0, h1, h2⟩ := bytes_of_group24 b0 b1 b2
    simp only [codecEncode, fullSymbols, symbol0, symbol1, symbol2, symbol3, List.cons_append, List.nil_append,
      bytesOfGroups, dec_alpha, bytesOfFields, h0, h1, h2, ih]
  | case2 b0 b1 =>
    simp only [codecEncode, tailSymbols2, bytesOfGroups, dec_alpha, dec_padChar, bytesOfFields, byte0_of_slices,
      byte1_of_slices, List.append_nil]
  | case3 b0 =>
    simp only [codecEncode, tailSymbols1, bytesOfGroups, dec_alpha, dec_padChar, bytesOfFields, byte0_of_slices,
      List.append_nil]
  | case4 => rfl

/-- A sequence without a bad index decodes to the bytes of its groups (R130). -/
theorem codecDecode_of_good {S : List Byte} (h : ∀ j < S.length, codecBad S j = false) :
    codecDecode S = .ok (bytesOfGroups S) := by
  cases hS : codecDecode S with
  | ok B => rw [(codecDecode_ok hS).2]
  | error k =>
    obtain ⟨hk, hbad, _⟩ := codecDecode_error hS
    rw [h k hk] at hbad
    cases hbad

/-- No index of an encoding is bad (R118, R146). -/
theorem codecBad_codecEncode {B : List Byte} {j : Nat} (hj : j < (codecEncode B).length) :
    codecBad (codecEncode B) j = false := by
  obtain ⟨vs, hvs⟩ := codecEncode_eq_alphaThenPads B
  rw [hvs] at hj ⊢
  exact codecBad_alphaThenPads (by omega) (by simpa using hj)

/-- Settles O49: no index of the encoding is bad, and its groups give the bytes back. -/
theorem decodeInvertsEncode : Obligations.DecodeInvertsEncode := by
  intro B
  rw [codecDecode_of_good fun _ => codecBad_codecEncode, bytesOfGroups_codecEncode]

/-- Settles O47: the pads are those behind the characters of the sextets. -/
theorem encodingPadsOnlyTheTail : Obligations.EncodingPadsOnlyTheTail := by
  intro B j hj
  obtain ⟨vs, hvs⟩ := codecEncode_eq_alphaThenPads B
  rw [hvs, alphaThenPads_length] at hj ⊢
  exact (alphaThenPads_getD_eq_padChar_iff hj).trans Nat.add_le_add_iff_right.symm

/-- Settles O48. -/
theorem encodingStaysInTheAlphabet : Obligations.EncodingStaysInTheAlphabet := by
  intro B y hy
  obtain ⟨vs, hvs⟩ := codecEncode_eq_alphaThenPads B
  exact mem_alphaThenPads (hvs ▸ hy)

end Sys2Proof.Machine
end

section
/-! PROOFS. The steps of ENCODE (R21, R22, R111 to R114, R116): the checks of its accept step, and its group steps, whose
symbols are the bit slices of the bytes read; and that the accesses of a group step of either operation ascend (R142). -/

namespace Sys2Proof.Machine

/-- Settles O9: the accepted state of ENCODE. -/
theorem encodeAcceptStep : Obligations.EncodeAcceptStep :=
  ⟨fun s cap n h => ⟨s.accepted (.encode cap n), exec_of_unitIdle h _, rfl, rfl, rfl⟩,
    fun cap n => op_encodeWord (.encode cap n)⟩

/-! The symbols of a group, in each of its three cases (R18). -/

section
variable {c : Context} (s : State)

theorem encodeSymbols_full (h : c.g < c.n / 3) :
    encodeSymbols c s = (3, fullSymbols (s.srcCell (3 * c.g)) (s.srcCell (3 * c.g + 1)) (s.srcCell (3 * c.g + 2))) :=
  if_pos h

theorem encodeSymbols_tail1 (h : c.g = c.n / 3) (hn : c.n % 3 = 1) :
    encodeSymbols c s = (1, tailSymbols1 (s.srcCell (3 * c.g))) :=
  (if_neg h.not_lt).trans (if_pos hn)

theorem encodeSymbols_tail2 (h : c.g = c.n / 3) (hn : c.n % 3 = 2) :
    encodeSymbols c s = (2, tailSymbols2 (s.srcCell (3 * c.g)) (s.srcCell (3 * c.g + 1))) :=
  (if_neg h.not_lt).trans (if_neg (by omega))

end

/-- `(b & 0x03) << 4` is `{b[1:0], 0000}` (R113). -/
theorem low2_shiftLeft (b : Byte) : (b &&& 0x03#8).extractLsb' 0 6 <<< 4 = b.extractLsb' 0 2 ++ 0#4 := by
  apply BitVec.eq_of_getLsbD_eq
  intro i hi
  rw [BitVec.getLsbD_append]
  interval_cases i <;> simp

/-- `(b & 0x0F) << 2` is `{b[3:0], 00}` (R114). -/
theorem low4_shiftLeft (b : Byte) : (b &&& 0x0F#8).extractLsb' 0 6 <<< 2 = b.extractLsb' 0 4 ++ 0#2 := by
  apply BitVec.eq_of_getLsbD_eq
  intro i hi
  rw [BitVec.getLsbD_append]
  interval_cases i <;> simp

/-! The group step of ENCODE. -/

/-- The group step of an ENCODE with a group left, whatever its buffers (R22). -/
theorem step_of_encode {s : State} {c : Context} (hturn : UnitsTurn s) (hm : s.mode = .run c) (ho : c.op = .encode)
    (hg : c.g < encodeGroups c.n) : step s = .next (s.encoded c) := by
  rw [step_of_run hturn hm, groupStep_encode s ho, encodeGroup_next c s hg, State.encoded, Context.nextMode,
    Context.groups_encode ho]

/-- A destination cell of the group holds its symbol (R112 to R114). -/
theorem State.dstCell_encoded (s : State) (c : Context) {k : Nat} (hk : k < (encodeSymbols c s).2.length) :
    (s.encoded c).dstCell (4 * c.g + k) = (encodeSymbols c s).2[k] := by
  show (Memory.read (Memory.writeAll s.mem (s.dstBase + 4 * c.g) (encodeSymbols c s).2)
    (s.dstBase + (4 * c.g + k))).getD _ = _
  rw [← Nat.add_assoc, Memory.read_writeAll_inside _ _ _ _ hk]
  rfl

/-- A group changes no cell but its own four. -/
theorem State.cell_encoded (s : State) (c : Context) {a : Nat}
    (ha : a < s.dstBase + 4 * c.g ∨ s.dstBase + 4 * c.g + 4 ≤ a) : (s.encoded c).cell a = s.cell a :=
  State.cell_congr (Memory.read_writeAll_outside _ _ (by rwa [encodeSymbols_length]))

/-- What a group step of ENCODE leaves when its group has `k` source cells and the symbols `y0` to `y3` (R112 to R114): the
symbols in its four cells, every other cell as before, the next mode, the reads and then the writes on the bus. -/
theorem encodeStep_leaves {s : State} {c : Context} {k : Nat} {y0 y1 y2 y3 : Byte} {m : Mode} (hturn : UnitsTurn s)
    (hm : s.mode = .run c) (ho : c.op = .encode) (hg : c.g < encodeGroups c.n)
    (hy : encodeSymbols c s = (k, [y0, y1, y2, y3])) (hmode : c.nextMode 0 = m) :
    ∃ t, step s = .next t ∧
      t.dstCell (4 * c.g) = y0 ∧ t.dstCell (4 * c.g + 1) = y1 ∧ t.dstCell (4 * c.g + 2) = y2 ∧
      t.dstCell (4 * c.g + 3) = y3 ∧
      (∀ a, (a < s.dstBase + 4 * c.g ∨ s.dstBase + 4 * c.g + 4 ≤ a) → t.cell a = s.cell a) ∧
      t.mode = m ∧ t.bus = s.groupReads (3 * c.g) k ++ writesFrom (4 * c.g) [y0, y1, y2, y3] ∧
      t = { s with mode := t.mode, mem := t.mem, bus := t.bus } := by
  have hlen := encodeSymbols_length c s
  have hcell : ∀ i (hi : i < 4), (s.encoded c).dstCell (4 * c.g + i) = [y0, y1, y2, y3][i] := fun i hi => by
    rw [s.dstCell_encoded c (hi.trans_eq hlen.symm)]
    simp only [hy]
  refine ⟨s.encoded c, step_of_encode hturn hm ho hg, hcell 0 (by decide), hcell 1 (by decide), hcell 2 (by decide),
    hcell 3 (by decide), fun _ => s.cell_encoded c, hmode, ?_, rfl⟩
  rw [State.encoded, hy]

/-- An ENCODE that has a tail ends with it (R18, R22). -/
theorem nextMode_of_tail {c : Context} (ho : c.op = .encode) (h : c.g = c.n / 3) (hn : c.n % 3 ≠ 0) :
    c.g < encodeGroups c.n ∧ c.nextMode 0 = .done ⟨.ok, 0⟩ := by
  have hlast : c.g + 1 = encodeGroups c.n := by
    unfold encodeGroups
    omega
  exact ⟨by omega, if_pos (by rw [Context.groups_encode ho]; exact hlast)⟩

/-- Settles O14: the symbols of a complete group are the slices of its three bytes. -/
theorem encodeCompleteGroupStep : Obligations.EncodeCompleteGroupStep := by
  intro s c hturn hm ho hg
  have hy := encodeSymbols_full s hg
  rw [fullSymbols_eq] at hy
  refine encodeStep_leaves hturn hm ho ?_ hy ?_
  · unfold encodeGroups
    omega
  · rw [Context.nextMode, Context.groups_encode ho]
    rfl

/-- Settles O15: the tail is the last group, and its second symbol is the low two bits moved up. -/
theorem encodeOneByteTailStep : Obligations.EncodeOneByteTailStep := by
  intro s c hturn hm ho hg hn
  obtain ⟨hleft, hmode⟩ := nextMode_of_tail ho hg (by omega)
  simp only [low2_shiftLeft]
  exact encodeStep_leaves hturn hm ho hleft (encodeSymbols_tail1 s hg hn) hmode

/-- Settles O16: the tail is the last group, and its third symbol is the low four bits of the second byte moved up. -/
theorem encodeTwoByteTailStep : Obligations.EncodeTwoByteTailStep := by
  intro s c hturn hm ho hg hn
  obtain ⟨hleft, hmode⟩ := nextMode_of_tail ho hg (by omega)
  simp only [low4_shiftLeft]
  exact encodeStep_leaves hturn hm ho hleft (encodeSymbols_tail2 s hg hn) hmode

/-! The order of the accesses. -/

theorem groupReads_readIndex (s : State) (base k : Nat) :
    (s.groupReads base k).filterMap Access.readIndex = List.range' base k := by
  rw [State.groupReads, List.filterMap_map, List.range'_eq_map_range]
  exact congrFun (List.filterMap_eq_map (f := fun i => base + i)) _

theorem groupReads_writeIndex (s : State) (base k : Nat) : (s.groupReads base k).filterMap Access.writeIndex = [] := by
  refine List.filterMap_eq_nil_iff.2 fun x hx => ?_
  obtain ⟨j, _, rfl⟩ := List.mem_map.1 hx
  rfl

theorem writesFrom_readIndex (j : Nat) (vs : List Byte) : (writesFrom j vs).filterMap Access.readIndex = [] := by
  refine List.filterMap_eq_nil_iff.2 fun x hx => ?_
  obtain ⟨k, _, rfl⟩ := List.mem_mapIdx.1 hx
  rfl

theorem writesFrom_writeIndex (j : Nat) (vs : List Byte) :
    (writesFrom j vs).filterMap Access.writeIndex = List.range' j vs.length := by
  induction vs generalizing j with
  | nil => rfl
  | cons v vs ih =>
    have htail : writesFrom j (v :: vs) = .dstWrite j v :: writesFrom (j + 1) vs := by
      simp [writesFrom, List.mapIdx_cons, Nat.add_assoc, Nat.add_comm 1]
    rw [htail]
    exact congrArg (j :: ·) (ih (j + 1))

/-- At most `m` reads from source cell `base` on, then at most `n` writes from destination cell `j` on, ascend and stay inside
those cells. -/
theorem accesses_ascend {s : State} {bus : List Access} {base k j m n : Nat} {vs : List Byte}
    (hbus : bus = s.groupReads base k ++ writesFrom j vs) (hk : k ≤ m) (hvs : vs.length ≤ n) :
    ∃ reads writes : List Access, bus = reads ++ writes ∧
      (reads.filterMap Access.writeIndex = [] ∧ writes.filterMap Access.readIndex = []) ∧
      (reads.filterMap Access.readIndex).Pairwise (· < ·) ∧ (writes.filterMap Access.writeIndex).Pairwise (· < ·) ∧
      (∀ i ∈ reads.filterMap Access.readIndex, base ≤ i ∧ i < base + m) ∧
      ∀ i ∈ writes.filterMap Access.writeIndex, j ≤ i ∧ i < j + n := by
  refine ⟨_, _, hbus, ⟨groupReads_writeIndex s base k, writesFrom_readIndex j vs⟩, ?_⟩
  rw [groupReads_readIndex, writesFrom_writeIndex]
  refine ⟨List.pairwise_lt_range', List.pairwise_lt_range', fun i hi => ?_, fun i hi => ?_⟩ <;>
  · obtain ⟨hlo, hhi⟩ := List.mem_range'_1.1 hi
    exact ⟨hlo, by omega⟩

/-- Settles O20, by the outcome of the group step: reads of the group's source cells, then writes of its destination cells;
a bad character lets it write none. -/
theorem groupAccessesAscend : Obligations.GroupAccessesAscend := by
  intro s t c hturn hm h
  rw [step_of_run hturn hm] at h
  obtain ⟨_, ⟨k, v, vs, ho, hk, _, _, hlen, rfl⟩ | ⟨vs, ho, hlen, _, rfl⟩ | ⟨k, ho, hk, rfl⟩⟩ := groupStep_cases h <;>
    rw [ho]
  · exact accesses_ascend rfl hk hlen.le
  · exact accesses_ascend rfl (Nat.le_refl 4) hlen
  · exact accesses_ascend (vs := []) (List.append_nil _).symm hk (Nat.zero_le _)

end Sys2Proof.Machine
end

section
/-! PROOFS. The last characters of an input (R130, R131, R139): the pad count, and with it the bad indices and the dropped
bits, depends on the end of the input alone; and what a successful or failing decoding says of the whole of it. -/

namespace Sys2Proof.Machine

/-- Counted from the end, a character of the last part is that of the whole. -/
theorem getD_append_from_end (T : List Byte) {S : List Byte} {k : Nat} (hk : k ≤ S.length) :
    (T ++ S).getD ((T ++ S).length - k) 0#8 = S.getD (S.length - k) 0#8 := by
  rw [List.length_append, Nat.add_sub_assoc hk, List.getD_append_right _ _ _ _ (Nat.le_add_right ..),
    Nat.add_sub_cancel_left]

theorem codecPadcount_append (T : List Byte) {S : List Byte} (h : 2 ≤ S.length) :
    codecPadcount (T ++ S) = codecPadcount S := by
  have hlen := List.length_append (as := T) (bs := S)
  unfold codecPadcount
  rw [if_neg (by omega), if_neg (by omega), getD_append_from_end T (by omega), getD_append_from_end T h]

theorem codecBad_append (T : List Byte) {S : List Byte} (h : 2 ≤ S.length) (j : Nat) :
    codecBad (T ++ S) (T.length + j) = codecBad S j := by
  unfold codecBad
  rw [List.getD_append_right _ _ _ _ (Nat.le_add_right ..), Nat.add_sub_cancel_left, codecPadcount_append T h,
    List.length_append, Nat.add_assoc]
  simp only [Nat.add_lt_add_iff_left]

theorem droppedBitsZero_append (T : List Byte) {S : List Byte} (h : 3 ≤ S.length) :
    droppedBitsZero (T ++ S) = droppedBitsZero S := by
  unfold droppedBitsZero
  rw [codecPadcount_append T (by omega), getD_append_from_end T (by omega), getD_append_from_end T h]

/-- The pad count by the last character first, as R131 has it. -/
theorem padcount_val (c1 c2 : Byte) :
    (padcount c1 c2).val = if c1 = padChar then (if c2 = padChar then 2 else 1) else 0 := by
  simp only [padcount, ne_eq, ite_not]
  split_ifs <;> rfl

/-- An input decodes to an error exactly at its least bad index: there is one such index only (R130, R137). -/
theorem codecDecode_eq_error_iff {S : List Byte} {k : Nat} : codecDecode S = .error k ↔
    k < S.length ∧ codecBad S k = true ∧ ∀ j < k, codecBad S j = false := by
  refine ⟨codecDecode_error, fun ⟨hk, hbad, hleast⟩ => ?_⟩
  cases hS : codecDecode S with
  | ok B => exact absurd hbad (by simp [(codecDecode_ok hS).1 k hk])
  | error i =>
    obtain ⟨_, hibad, hileast⟩ := codecDecode_error hS
    rcases Nat.lt_trichotomy i k with hlt | rfl | hlt
    · exact absurd hibad (by simp [hleast i hlt])
    · rfl
    · exact absurd hbad (by simp [hileast k hlt])

/-- Settles O43: what stands before the last two characters does not count. -/
theorem padCountReadsTheLastTwoCells : Obligations.PadCountReadsTheLastTwoCells :=
  ⟨rfl, codecPadcount_le_two, fun S c1 c2 _ =>
    (codecPadcount_append S (S := [c2, c1]) (Nat.le_refl 2)).trans (padcount_val c1 c2)⟩

/-- Settles O50: an input that decodes has no bad index, so its groups have `declen` bytes. -/
theorem decodedLengthIsDeclen : Obligations.DecodedLengthIsDeclen := by
  intro S B hwhole hB
  obtain ⟨hgood, rfl⟩ := codecDecode_ok hB
  exact bytesOfGroups_length hwhole hgood

/-- Settles O52. -/
theorem decodeReportsTheLeastBadIndex : Obligations.DecodeReportsTheLeastBadIndex := fun _ _ =>
  codecDecode_eq_error_iff

end Sys2Proof.Machine
end

section
/-! PROOFS. Encoding what was decoded (R139, R146). A group of four sextets comes back as it was; a last group with pads
comes back with the bits that its bytes do not hold cleared, so it is the same exactly when they were zero. -/

namespace Sys2Proof.Machine

theorem alpha_inj {v w : Sextet} : alpha v = alpha w ↔ v = w := ⟨alpha_injective, congrArg alpha⟩

/-! The symbols of the bytes of some sextets (R79, R83, R112 to R114). -/

theorem fullSymbols_of_bytes (v0 v1 v2 v3 : Sextet) :
    fullSymbols (byte0 v0 v1) (byte1 v1 v2) (byte2 v2 v3) = [alpha v0, alpha v1, alpha v2, alpha v3] := by
  obtain ⟨h0, h1, h2, h3⟩ := sextets_of_bytes v0 v1 v2 v3
  rw [fullSymbols, symbol0, symbol1, symbol2, symbol3, h0, h1, h2, h3]

/-- Two bytes hold the third sextet's high four bits only. -/
theorem tailSymbols2_of_bytes (v0 v1 v2 : Sextet) :
    tailSymbols2 (byte0 v0 v1) (byte1 v1 v2) = [alpha v0, alpha v1, alpha (v2.extractLsb' 2 4 ++ 0#2), padChar] := by
  have h1 : v1.extractLsb' 4 2 ++ v1.extractLsb' 0 4 = v1 := BitVec.extractLsb'_append_extractLsb' (w := 2)
  rw [tailSymbols2, byte0_eq, byte1_eq, BitVec.extractLsb'_append_eq_left, BitVec.extractLsb'_append_eq_right,
    BitVec.extractLsb'_append_eq_left, BitVec.extractLsb'_append_eq_right, h1]

/-- One byte holds the second sextet's high two bits only. -/
theorem tailSymbols1_of_byte (v0 v1 : Sextet) :
    tailSymbols1 (byte0 v0 v1) = [alpha v0, alpha (v1.extractLsb' 4 2 ++ 0#4), padChar, padChar] := by
  rw [tailSymbols1, byte0_eq, BitVec.extractLsb'_append_eq_left, BitVec.extractLsb'_append_eq_right]

/-- Clearing the low bits of a word leaves it as it is exactly when they are zero. -/
theorem high_append_zero_eq_iff {m n : Nat} (v : BitVec (m + n)) :
    v.extractLsb' n m ++ 0#n = v ↔ v.extractLsb' 0 n = 0#n := by
  have hv : v.extractLsb' n m ++ v.extractLsb' 0 n = v := BitVec.extractLsb'_append_extractLsb'
  constructor
  · intro h
    rw [← h, BitVec.extractLsb'_append_eq_right]
  · intro h
    rwa [h] at hv

/-! The bytes of a group, encoded again. -/

/-- Four sextets come back, and what follows them is encoded for itself. -/
theorem reencode_sextets (v0 v1 v2 v3 : Sextet) (S : List Byte) :
    codecEncode (bytesOfGroups ([alpha v0, alpha v1, alpha v2, alpha v3] ++ S)) =
      [alpha v0, alpha v1, alpha v2, alpha v3] ++ codecEncode (bytesOfGroups S) := by
  simp only [List.cons_append, List.nil_append, bytesOfGroups, dec_alpha, bytesOfFields, codecEncode, fullSymbols_of_bytes]

theorem reencode_one_pad (v0 v1 v2 : Sextet) :
    codecEncode (bytesOfGroups [alpha v0, alpha v1, alpha v2, padChar]) =
      [alpha v0, alpha v1, alpha (v2.extractLsb' 2 4 ++ 0#2), padChar] := by
  simp only [bytesOfGroups, dec_alpha, dec_padChar, bytesOfFields, List.append_nil, codecEncode, tailSymbols2_of_bytes]

theorem reencode_two_pads (v0 v1 : Sextet) :
    codecEncode (bytesOfGroups [alpha v0, alpha v1, padChar, padChar]) =
      [alpha v0, alpha (v1.extractLsb' 4 2 ++ 0#4), padChar, padChar] := by
  simp only [bytesOfGroups, dec_alpha, dec_padChar, bytesOfFields, List.append_nil, codecEncode, tailSymbols1_of_byte]

/-! The bits that decoding drops, by the number of pads (R139). -/

section
variable {S : List Byte} {v : Sextet}

theorem droppedBitsZero_of_no_pad (hp : codecPadcount S = 0) : droppedBitsZero S = true := by
  simp only [droppedBitsZero, hp]

theorem droppedBitsZero_of_one_pad (hp : codecPadcount S = 1) (hv : S.getD (S.length - 2) 0#8 = alpha v) :
    droppedBitsZero S = true ↔ v.extractLsb' 0 2 = 0#2 := by
  simp only [droppedBitsZero, hp, hv, dec_alpha, decide_eq_true_iff]

theorem droppedBitsZero_of_two_pads (hp : codecPadcount S = 2) (hv : S.getD (S.length - 3) 0#8 = alpha v) :
    droppedBitsZero S = true ↔ v.extractLsb' 0 4 = 0#4 := by
  simp only [droppedBitsZero, hp, hv, dec_alpha, decide_eq_true_iff]

end

/-! The groups of an input without a bad index. -/

/-- Before the last two places of an input only a sextet's character is good: a pad there is bad (R130, R131). -/
theorem alpha_of_not_codecBad {S : List Byte} {j : Nat} (h : codecBad S j = false) (hj : j + 2 < S.length) :
    ∃ v, S.getD j 0#8 = alpha v := by
  have hp := codecPadcount_le_two S
  obtain ⟨v, hv⟩ := (dec_of_not_codecBad h).resolve_right fun ⟨_, hpad⟩ => by omega
  exact ⟨v, (dec_eq_sextet_iff _ v).1 hv⟩

/-- A good group with two characters or more behind it is four sextets. -/
theorem sextets_of_good_group {c0 c1 c2 c3 : Byte} {S : List Byte} (hS : 2 ≤ S.length)
    (h : ∀ j < 4, codecBad ([c0, c1, c2, c3] ++ S) j = false) :
    ∃ v0 v1 v2 v3, [c0, c1, c2, c3] = [alpha v0, alpha v1, alpha v2, alpha v3] := by
  have hlen : ([c0, c1, c2, c3] ++ S).length = S.length + 4 := rfl
  obtain ⟨v0, h0⟩ := alpha_of_not_codecBad (h 0 (by omega)) (by omega)
  obtain ⟨v1, h1⟩ := alpha_of_not_codecBad (h 1 (by omega)) (by omega)
  obtain ⟨v2, h2⟩ := alpha_of_not_codecBad (h 2 (by omega)) (by omega)
  obtain ⟨v3, h3⟩ := alpha_of_not_codecBad (h 3 (by omega)) (by omega)
  exact ⟨v0, v1, v2, v3, congrArg₂ _ h0 (congrArg₂ _ h1 (congrArg₂ _ h2 (congrArg₂ _ h3 rfl)))⟩

theorem codecPadcount_group (c0 c1 c2 c3 : Byte) :
    codecPadcount [c0, c1, c2, c3] = if c3 = padChar then (if c2 = padChar then 2 else 1) else 0 := padcount_val c3 c2

/-- A good group that is the last is two sextets, then two sextets, a sextet and a pad, or two pads: a pad before a sextet
is not among those the pad count admits (R131). -/
theorem shapes_of_last_group {c0 c1 c2 c3 : Byte} (h : ∀ j < 4, codecBad [c0, c1, c2, c3] j = false) :
    (∃ v0, c0 = alpha v0) ∧ (∃ v1, c1 = alpha v1) ∧
      ((∃ v2, c2 = alpha v2) ∧ (∃ v3, c3 = alpha v3) ∨ (∃ v2, c2 = alpha v2) ∧ c3 = padChar ∨
        c2 = padChar ∧ c3 = padChar) := by
  refine ⟨alpha_of_not_codecBad (h 0 (by omega)) (Nat.le_succ 3),
    alpha_of_not_codecBad (h 1 (by omega)) (Nat.le_refl 4), ?_⟩
  have h2 : (∃ v, dec c2 = .sextet v) ∨ (dec c2 = .pad ∧ 4 ≤ 2 + codecPadcount [c0, c1, c2, c3]) :=
    dec_of_not_codecBad (h 2 (by omega))
  have h3 : (∃ v, dec c3 = .sextet v) ∨ (dec c3 = .pad ∧ 4 ≤ 3 + codecPadcount [c0, c1, c2, c3]) :=
    dec_of_not_codecBad (h 3 (by omega))
  simp only [dec_eq_sextet_iff, dec_eq_pad_iff] at h2 h3
  rcases h2 with h2 | ⟨h2, hp⟩
  · rcases h3 with h3 | ⟨h3, _⟩
    · exact .inl ⟨h2, h3⟩
    · exact .inr (.inl ⟨h2, h3⟩)
  · refine .inr (.inr ⟨h2, ?_⟩)
    by_contra hne
    rw [codecPadcount_group, if_neg hne] at hp
    omega

/-- R139 and R146 for the last group. -/
theorem reencode_last_group_iff {c0 c1 c2 c3 : Byte} (h : ∀ j < 4, codecBad [c0, c1, c2, c3] j = false) :
    codecEncode (bytesOfGroups [c0, c1, c2, c3]) = [c0, c1, c2, c3] ↔ droppedBitsZero [c0, c1, c2, c3] = true := by
  have hcount := codecPadcount_group c0 c1 c2 c3
  obtain ⟨⟨v0, rfl⟩, ⟨v1, rfl⟩, ⟨⟨v2, rfl⟩, v3, rfl⟩ | ⟨⟨v2, rfl⟩, rfl⟩ | ⟨rfl, rfl⟩⟩ := shapes_of_last_group h
  · rw [if_neg (alpha_ne_padChar v3)] at hcount
    exact iff_of_true (reencode_sextets v0 v1 v2 v3 []) (droppedBitsZero_of_no_pad hcount)
  · rw [if_pos rfl, if_neg (alpha_ne_padChar v2)] at hcount
    rw [reencode_one_pad, droppedBitsZero_of_one_pad hcount rfl, ← high_append_zero_eq_iff (m := 4) (n := 2),
      ← alpha_inj]
    simp
  · rw [if_pos rfl, if_pos rfl] at hcount
    rw [reencode_two_pads, droppedBitsZero_of_two_pads hcount rfl, ← high_append_zero_eq_iff (m := 2) (n := 4),
      ← alpha_inj]
    simp

/-- R139 and R146, group by group: only the last group can come back changed, and only it drops bits. -/
theorem reencode_iff {S : List Byte} (hwhole : S.length % 4 = 0) (hgood : ∀ j < S.length, codecBad S j = false) :
    codecEncode (bytesOfGroups S) = S ↔ droppedBitsZero S = true := by
  induction S using bytesOfGroups.induct with
  | case1 c0 c1 c2 c3 rest ih =>
    have hlen : (c0 :: c1 :: c2 :: c3 :: rest).length = 4 + rest.length := Nat.add_comm rest.length 4
    rcases Nat.eq_zero_or_pos rest.length with hlast | hmore
    · obtain rfl := List.length_eq_zero_iff.1 hlast
      exact reencode_last_group_iff hgood
    · have hrest : ∀ j < rest.length, codecBad rest j = false := fun j hj =>
        (codecBad_append [c0, c1, c2, c3] (by omega) j).symm.trans (hgood (4 + j) (by omega))
      have hdrop : droppedBitsZero (c0 :: c1 :: c2 :: c3 :: rest) = droppedBitsZero rest :=
        droppedBitsZero_append [c0, c1, c2, c3] (by omega)
      obtain ⟨v0, v1, v2, v3, hG⟩ := sextets_of_good_group (S := rest) (by omega) fun j hj => hgood j (by omega)
      show codecEncode (bytesOfGroups ([c0, c1, c2, c3] ++ rest)) = [c0, c1, c2, c3] ++ rest ↔ _
      rw [hG, reencode_sextets, List.append_right_inj, hdrop, ih (by omega) hrest]
  | case2 S hshort =>
    match S, hwhole, hshort with
    | [], _, _ => exact iff_of_true rfl rfl
    | c0 :: c1 :: c2 :: c3 :: rest, _, hshort => exact absurd rfl (hshort c0 c1 c2 c3 rest)

/-- Settles O51: what was decoded are the bytes of a source of whole groups without a bad index. -/
theorem reencodingIsExactOnCanonicalInput : Obligations.ReencodingIsExactOnCanonicalInput := by
  intro S B hwhole hB
  obtain ⟨hgood, rfl⟩ := codecDecode_ok hB
  exact reencode_iff hwhole hgood

end Sys2Proof.Machine
end

section
/-! PROOFS. The accept step of DECODE with its checks (R131, R132), and its group step at a character that is not acceptable
where it stands (R133 to R137, R141). -/

namespace Sys2Proof.Machine

/-- Settles O10: the accepted state of DECODE; the statement joins its two cases without an access in one. -/
theorem decodeAcceptStep : Obligations.DecodeAcceptStep := by
  intro s cap m h c1 c2 p
  rw [exec_of_unitIdle h, ite_or]
  rfl

/-- The group step of a DECODE whose first unacceptable position is `k`, whatever its buffers (R134, R136, R137). -/
theorem step_of_bad_position {s : State} {c : Context} {k : Nat} (hturn : UnitsTurn s) (hm : s.mode = .run c)
    (ho : c.op = .decode) (hg : c.g < decodeGroups c.n) (hk : k < 4)
    (hok : ∀ j < k, positionOk c j (s.srcCell (4 * c.g + j)) = true)
    (hbad : positionOk c k (s.srcCell (4 * c.g + k)) = false) : step s = .next (groupResult c s (.bad k)) := by
  have hG : groupOutcome c s = .bad k := groupOutcome_of_bad hk (fun j hj => (fieldAt_isSome c s j).trans (hok j hj))
    ((fieldAt_isSome c s k).trans hbad)
  rw [step_of_run hturn hm, groupStep_decode s ho, decodeGroup_next c s hg, hG]

/-- Settles O17: the step ends in the outcome of its first bad position, which draws the cells from `DST[3g]` to the
capacity. -/
theorem decodeGroupReportsTheFirstBadPosition : Obligations.DecodeGroupReportsTheFirstBadPosition := by
  intro s c k hturn hm ho hg hk hok hbad
  refine ⟨_, step_of_bad_position hturn hm ho hg hk hok hbad, rfl, rfl,
    fun a ha => State.cell_congr (Memory.read_writeAll_outside _ _ ?_), rfl⟩
  rw [freeBytes_length]
  omega

end Sys2Proof.Machine
end

section
/-! PROOFS. The statuses an operation can end with (R162): the checks of its accept step answer at once or let it run, and a
group step ends it with `OK` or, for a DECODE alone, with `INVALID_CHAR`. -/

namespace Sys2Proof.Machine

/-! The accept step. -/

section
variable {s : State} {cap n : Nat} {r : Response}

/-- An accept step that ends the operation answers what the checks of the command decide (R163). -/
theorem acceptMode_of_exec_done {i : Instr} {t : State} (hidle : UnitIdle s) (h : exec i s = .next t)
    (hr : t.mode = .done r) : acceptMode s i = .done r := by
  rw [exec_of_unitIdle hidle] at h
  injection h with h
  subst h
  exact hr

theorem acceptMode_encode_done (h : acceptMode s (.encode cap n) = .done r) :
    r.status = .ok ∨ r = ⟨.precondition, causeCapacity⟩ := by
  rcases Nat.lt_or_ge cap (enclen n) with hcap | hcap
  · rw [acceptMode_encode_small s hcap] at h
    exact .inr (Mode.done.inj h).symm
  · rcases eq_or_ne n 0 with rfl | hn
    · rw [acceptMode_encode_empty] at h
      exact .inl (congrArg Response.status (Mode.done.inj h).symm)
    · rw [acceptMode_encode_run s hcap hn] at h
      cases h

theorem acceptMode_decode_done (h : acceptMode s (.decode cap n) = .done r) :
    r.status = .ok ∨ r = ⟨.precondition, causeLength⟩ ∨ r = ⟨.precondition, causeCapacity⟩ := by
  rcases eq_or_ne (n % 4) 0 with hlen | hlen
  · rcases eq_or_ne n 0 with rfl | hn
    · rw [acceptMode_decode_empty] at h
      exact .inl (congrArg Response.status (Mode.done.inj h).symm)
    · rcases Nat.lt_or_ge cap (declen n (padcount (s.srcCell (n - 1)) (s.srcCell (n - 2)))) with hcap | hcap
      · rw [acceptMode_decode_small s hlen hn hcap] at h
        exact .inr (.inr (Mode.done.inj h).symm)
      · rw [acceptMode_decode_run s hlen hn hcap] at h
        cases h
  · rw [acceptMode_decode_ragged s hlen] at h
    exact .inr (.inl (Mode.done.inj h).symm)

end

/-! The group step. -/

theorem Context.nextMode_done {c : Context} {v : Nat} {r : Response} (h : c.nextMode v = .done r) : r = ⟨.ok, v⟩ := by
  unfold Context.nextMode at h
  split at h
  · exact (Mode.done.inj h).symm
  · cases h

/-- A group step that ends the operation ends it with `OK`, unless a DECODE met a bad character (R116, R137, R143). -/
theorem groupStep_done {c : Context} {s t : State} {r : Response} (h : groupStep c s = .next t) (hr : t.mode = .done r) :
    r.status = .ok ∨ (c.op = .decode ∧ r.status = .invalidChar) := by
  have hok : ∀ v, c.nextMode v = .done r → r.status = .ok := fun v h => congrArg Response.status (Context.nextMode_done h)
  obtain ⟨_, ⟨k, v, vs, _, _, _, _, _, rfl⟩ | ⟨vs, _, _, _, rfl⟩ | ⟨k, ho, _, rfl⟩⟩ := groupStep_cases h
  · exact .inl (hok v hr)
  · exact .inl (hok _ hr)
  · exact .inr ⟨ho, congrArg Response.status (Mode.done.inj hr).symm⟩

/-- Settles O38: the answers of the four accept steps, and the ends of the group steps of each operation. -/
theorem operationsEndWithTheirStatuses : Obligations.OperationsEndWithTheirStatuses := by
  refine ⟨fun i s t r hidle h hr => ?_, fun s t c r hturn hm h hr => ?_⟩
  · have ha := acceptMode_of_exec_done hidle h hr
    cases i with
    | enclen cap n => exact congrArg Response.status (Mode.done.inj ha).symm
    | encode cap n => exact acceptMode_encode_done ha
    | decode cap m => exact acceptMode_decode_done ha
    | reserved3 cap n => exact congrArg Response.status (Mode.done.inj ha).symm
  · rw [step_of_run hturn hm] at h
    have hend := groupStep_done h hr
    cases ho : c.op with
    | encode => exact hend.resolve_right fun hbad => by simp [ho] at hbad
    | decode => exact hend.imp_right And.right

end Sys2Proof.Machine
end

section
/-! PROOFS. The machine never stops (R18, R201): the unit's step in each mode, that from the invariant it is a next state, and
with it that an operation in flight reaches `DONE` within the groups it has left. -/

namespace Sys2Proof.Machine

/-! The unit's step, one equation for each mode (R20); `unitStep_of_offer` is that of the accept step. -/

section
variable {s : State}

theorem unitStep_of_reset (h : s.rst = true) : unitStep s = .next s.quiet := if_pos h

theorem unitStep_of_no_offer (h : UnitIdle s) (hc : s.cmd = none) : unitStep s = .next s.quiet := by
  obtain ⟨hm, hr⟩ := h
  simp [unitStep, hm, hr, hc]

theorem unitStep_of_run {c : Context} (hr : s.rst = false) (hm : s.mode = .run c) : unitStep s = groupStep c s := by
  simp [unitStep, hr, hm]

theorem unitStep_of_done {r : Response} (hr : s.rst = false) (hm : s.mode = .done r) :
    unitStep s = .next (if s.take then s.takeResponse r else s.quiet) := by
  cases ht : s.take <;> simp [unitStep, hr, hm, ht]

end

/-! The step is a next state. -/

theorem exec_next (i : Instr) (s : State) : ∃ t, exec i s = .next t := by
  obtain ⟨t, h, _⟩ := acceptStepsLendBuffersAndChangeNoCell i s
  exact ⟨t, h⟩

/-- A group that the input has is carried out, for both operations (R18, R22). -/
theorem groupStep_next {c : Context} (s : State) (hg : c.g < c.groups) : ∃ t, groupStep c s = .next t := by
  cases ho : c.op with
  | encode =>
    rw [Context.groups_encode ho] at hg
    exact ⟨_, (groupStep_encode s ho).trans (encodeGroup_next c s hg)⟩
  | decode =>
    rw [Context.groups_decode ho] at hg
    exact ⟨_, (groupStep_decode s ho).trans (decodeGroup_next c s hg)⟩

/-- The unit's step never faults in a state of the invariant, which leaves a group to every context in `RUN`. -/
theorem unitStep_next {s : State} (hi : Inv s) : ∃ t, unitStep s = .next t := by
  cases hr : s.rst with
  | true => exact ⟨_, unitStep_of_reset hr⟩
  | false =>
    cases hm : s.mode with
    | idle =>
      cases hc : s.cmd with
      | none => exact ⟨_, unitStep_of_no_offer ⟨hm, hr⟩ hc⟩
      | some w => exact unitStep_of_offer ⟨hm, hr⟩ hc ▸ exec_next _ s
    | run c =>
      obtain ⟨_, hg, _⟩ := Inv.run hi hm
      exact unitStep_of_run hr hm ▸ groupStep_next s hg
    | done r => exact ⟨_, unitStep_of_done hr hm⟩

/-- An entry `wait` of the agenda gives the unit its step, or goes when the unit has none (R201). -/
theorem step_of_wait {s : State} {rest : List HostAct} (ha : s.agenda = .wait :: rest) :
    step s = if s.unitEnabled then unitStep s else .next { s.quiet with agenda := rest } := by
  unfold step advance
  rw [ha]

/-- Settles O34, by whose step it is: only the unit's can fault, and the invariant does not read the agenda. -/
theorem stepAlwaysGoesOn : Obligations.StepAlwaysGoesOn := by
  intro s hi
  cases ha : s.agenda with
  | nil => exact step_of_free ha ▸ unitStep_next hi
  | cons act rest =>
    rcases eq_or_ne act .turn with rfl | hturn
    · exact step_of_turn ha ▸ unitStep_next (s := { s with agenda := rest }) hi
    · rcases eq_or_ne act .wait with rfl | hwait
      · rw [step_of_wait ha]
        split
        · exact unitStep_next hi
        · exact ⟨_, rfl⟩
      · exact ⟨_, step_of_act ha hturn hwait⟩

/-! Progress. -/

/-- After a group's writes the operation has ended or has its next group in `RUN` (R22). -/
theorem Context.nextMode_cases (c : Context) (v : Nat) :
    (∃ r, c.nextMode v = .done r) ∨ c.nextMode v = .run { c with g := c.g + 1 } := by
  unfold Context.nextMode
  split
  · exact .inl ⟨_, rfl⟩
  · exact .inr rfl

/-- A group step ends the operation or goes on to the next group (R22, R166). -/
theorem groupStep_mode {c : Context} {s t : State} (h : groupStep c s = .next t) :
    (∃ r, t.mode = .done r) ∨ t.mode = .run { c with g := c.g + 1 } := by
  obtain ⟨_, ⟨k, v, vs, _, _, _, _, _, rfl⟩ | ⟨vs, _, _, _, rfl⟩ | ⟨k, _, _, rfl⟩⟩ := groupStep_cases h
  · exact c.nextMode_cases v
  · exact c.nextMode_cases _
  · exact .inl ⟨_, rfl⟩

/-- A group step touches the mode, the memory, its own accesses and the draws, and nothing else. -/
theorem groupStep_frame {c : Context} {s t : State} (h : groupStep c s = .next t) :
    t = { s with mode := t.mode, mem := t.mem, bus := t.bus, draws := t.draws } := by
  obtain ⟨_, ⟨k, v, vs, _, _, _, _, _, rfl⟩ | ⟨vs, _, _, _, rfl⟩ | ⟨k, _, _, rfl⟩⟩ := groupStep_cases h <;> rfl

theorem groupStep_keeps_turn {c : Context} {s t : State} (hturn : UnitsTurn s) (h : groupStep c s = .next t) :
    UnitsTurn t := by
  rw [groupStep_frame h]
  exact hturn

/-- With at most `n` groups left, an operation left alone is in `DONE` after at most `n` steps (R18, R201). -/
theorem reaches_done_within {n : Nat} {s : State} {c : Context} (hi : Inv s) (hturn : UnitsTurn s) (hm : s.mode = .run c)
    (hn : c.groups ≤ c.g + n) : ∃ k t r, k ≤ n ∧ runSteps k s = .next t ∧ t.mode = .done r := by
  induction n generalizing s c with
  | zero =>
    obtain ⟨_, hg, _⟩ := Inv.run hi hm
    exact absurd hg (Nat.not_lt.2 hn)
  | succ n ih =>
    obtain ⟨_, hg, _⟩ := Inv.run hi hm
    obtain ⟨u, hu⟩ := groupStep_next s hg
    have hstep : step s = .next u := (step_of_run hturn hm).trans hu
    rcases groupStep_mode hu with ⟨r, hr⟩ | hrun
    · exact ⟨1, u, r, Nat.le_add_left 1 n, runSteps_succ hstep 0, hr⟩
    · have hleft : c.groups ≤ c.g + 1 + n := by omega
      obtain ⟨k, t, r, hk, hsteps, hr⟩ := ih (stepKeepsTheInvariant s u hi hstep) (groupStep_keeps_turn hturn hu) hrun hleft
      exact ⟨k + 1, t, r, Nat.succ_le_succ hk, (runSteps_succ hstep k).trans hsteps, hr⟩

/-- Settles O35. -/
theorem runningOperationReachesDone : Obligations.RunningOperationReachesDone := fun _ _ hi hturn hm =>
  reaches_done_within hi hturn hm (by omega)

end Sys2Proof.Machine
end

section
/-! PROOFS. Waiting, reset and the hazards (R190, R191, R194 to R199): what is offered or pending while the unit is busy or held
stays, what `rst` ends, what the host's reads and writes do to an operation in flight, and how a spoiled one ends. -/

namespace Sys2Proof.Machine

/-! Outside `IDLE`, and under `rst`. -/

/-- Outside `IDLE` the unit's step does not take the offer (R196). -/
theorem unitStep_keeps_offer {s t : State} (hm : s.mode ≠ .idle) (h : unitStep s = .next t) : t.cmd = s.cmd := by
  rcases unitStep_cases h with ⟨_, rfl⟩ | ⟨_, hidle, _⟩ | ⟨_, _, hidle, _⟩ | ⟨c, _, _, hg⟩ | ⟨r, _, _, _, rfl⟩ |
    ⟨_, _, _, _, rfl⟩
  · rfl
  · exact absurd hidle hm
  · exact absurd hidle hm
  · rw [groupStep_frame hg]
  · obtain ⟨_, _, _, ht⟩ := s.takeResponse_frame r
    rw [ht]
  · rfl

/-- Settles O13. -/
theorem commandOutsideIdleStaysOffered : Obligations.CommandOutsideIdleStaysOffered :=
  ⟨fun i _ hm => exec_of_not_unitIdle (fun hidle => hm hidle.1) i,
    fun _ _ hm hfree h => unitStep_keeps_offer hm ((step_of_free hfree).symm.trans h)⟩

/-- Settles O22: out of reset the unit waits for the host, under `rst` it makes no step. -/
theorem untakenResponseStays : Obligations.UntakenResponseStays := by
  intro s r hfree hm ht
  refine (step_of_free hfree).trans (?_ : unitStep s = .next s.quiet)
  cases hr : s.rst with
  | true => exact unitStep_of_reset hr
  | false => rw [unitStep_of_done hr hm, if_neg (Bool.eq_false_iff.1 ht)]

/-- Settles O25: the entry of the agenda is the act `assertReset`. -/
theorem assertedResetEndsTheOperation : Obligations.AssertedResetEndsTheOperation := by
  intro s rest ha
  have hstep : step s = .next (State.assertReset { s.quiet with agenda := rest }) := step_of_act ha nofun nofun
  refine ⟨_, hstep, rfl, rfl, rfl, rfl, rfl, rfl, rfl, rfl, rfl, fun a hout => ?_, fun hl => ?_⟩
  · exact State.cell_anyDst_lent { s.quiet with agenda := rest } hout
  · have hlent : State.lentDst { s.quiet with agenda := rest } = 0 := State.lentDst_none hl
    rw [State.assertReset_mem, hlent, State.anyDst_empty _ _ _ (Nat.le_refl 0)]
    rfl

/-- Settles O26: the invariant has the unit idle under `rst`, and nothing is left on the agenda after the release. -/
theorem unitHeldInReset : Obligations.UnitHeldInReset := by
  refine ⟨fun s hfree hr => (step_of_free hfree).trans (unitStep_of_reset hr),
    fun s rest ha => step_of_act ha nofun nofun, fun s w hi hr ha hc => ?_⟩
  obtain ⟨_, _, hheld⟩ := hi
  have hidle : UnitIdle (State.releaseReset { s.quiet with agenda := [] }) := ⟨hheld hr, rfl⟩
  exact ⟨_, step_of_act ha nofun nofun, hidle, (offeredCommandIsExecuted _ w hidle hc).1 rfl⟩

/-! The host's reads and writes. -/

theorem State.cell_poke_same (s : State) (a : Nat) (v : Byte) : (s.poke a v).cell a = v := by
  rw [State.cell, State.poke_mem, Memory.read_write_same, Option.getD_some]

theorem State.cell_poke_other (s : State) {a x : Nat} (v : Byte) (h : x ≠ a) : (s.poke a v).cell x = s.cell x :=
  State.cell_congr (Memory.read_write_other _ _ h)

/-- Settles O27: the entry of the agenda is the act `poke`. -/
theorem hostWriteSpoilsOnlyLentBuffers : Obligations.HostWriteSpoilsOnlyLentBuffers := by
  intro s a v rest ha
  have hstep : step s = .next (State.poke { s.quiet with agenda := rest } a v) := step_of_act ha nofun nofun
  exact ⟨_, hstep, rfl, State.cell_poke_same _ a v, fun x hx => State.cell_poke_other _ v hx, rfl⟩

/-- A read of the host is one byte more observed, the cell's own unless the cell is a lent destination cell (R193, R198). -/
theorem State.peek_frame (s : State) (a : Nat) : ∃ v, (inWindow s.dstBase s.lentDst a = false → v = s.cell a) ∧
    s.peek a = { s with observed := s.observed ++ [v], draws := (s.peek a).draws } := by
  unfold State.peek
  split
  · rename_i hin
    exact ⟨_, fun hout => absurd (hin.symm.trans hout) (by decide), rfl⟩
  · exact ⟨_, fun _ => rfl, rfl⟩

/-- Settles O28: the entry of the agenda is the act `peek`. -/
theorem hostReadDisturbsNothing : Obligations.HostReadDisturbsNothing := by
  intro s a rest ha
  have hstep : step s = .next (State.peek { s.quiet with agenda := rest } a) := step_of_act ha nofun nofun
  obtain ⟨v, hv, he⟩ := State.peek_frame { s.quiet with agenda := rest } a
  rw [he] at hstep
  exact ⟨_, v, hstep, rfl, hv, rfl⟩

/-! The end of a spoiled operation. -/

/-- Settles O30: the take step draws the lent destination cells and the word, and gives everything else back. -/
theorem spoiledOperationEndsSoundly : Obligations.SpoiledOperationEndsSoundly := by
  intro s r hturn hm ht hs
  have hstep := step_of_done hturn hm ht
  rw [State.takeResponse_spoiled hs] at hstep
  exact ⟨_, _, hstep, rfl, rfl, rfl, rfl, fun a hout => State.cell_anyDst_lent s hout, rfl⟩

/-! Responses of clean commands. -/

theorem Response.clean_iff (r : Response) : r.clean = true ↔ r.status = .ok ∨ r.status = .invalidChar := by
  unfold Response.clean
  cases r.status <;> simp

/-- With `LenOk`, `CapOk` and `OpOk` every check of the accept step is passed: an answer it gives at once is `OK` (R163,
R194). -/
theorem acceptMode_clean {s : State} {i : Instr} {r : Response} (hlen : lenOk i = true)
    (hcap : capOk i (s.source i.srcLen) = true) (hop : opOk i = true) (h : acceptMode s i = .done r) : r.status = .ok := by
  have hok : ∀ v, Mode.done ⟨.ok, v⟩ = .done r → r.status = .ok := fun v h =>
    congrArg Response.status (Mode.done.inj h).symm
  cases i with
  | enclen cap n => exact hok _ h
  | reserved3 cap n => cases hop
  | encode cap n =>
    rcases eq_or_ne n 0 with rfl | hn
    · exact hok _ ((acceptMode_encode_empty s cap).symm.trans h)
    · rw [acceptMode_encode_run s (of_decide_eq_true hcap) hn] at h
      cases h
  | decode cap m =>
    rcases eq_or_ne m 0 with rfl | hm
    · exact hok _ ((acceptMode_decode_empty s cap).symm.trans h)
    · have hfits : declen m (codecPadcount (s.source m)) ≤ cap := of_decide_eq_true hcap
      rw [codecPadcount_source s (Nat.pos_of_ne_zero hm)] at hfits
      rw [acceptMode_decode_run s (of_decide_eq_true hlen) hm hfits] at h
      cases h

/-- Settles O39: the accept step answers `OK` or lets the operation run, and a group step ends it with `OK` or
`INVALID_CHAR`. -/
theorem cleanCommandsGiveNoHostBugResponse : Obligations.CleanCommandsGiveNoHostBugResponse := by
  refine ⟨fun i s t r hidle hlen hcap hop h hr => ?_, fun s t c r hturn hm h hr => ?_⟩
  · exact r.clean_iff.2 (.inl (acceptMode_clean hlen hcap hop (acceptMode_of_exec_done hidle h hr)))
  · rw [step_of_run hturn hm] at h
    exact r.clean_iff.2 ((groupStep_done h hr).imp_right And.right)

end Sys2Proof.Machine
end
